-- ==== Sys2Proof/Word.lean ====
section
/-!
DEFINITION. Word.lean: the plain data types the whole model is written over: bytes, words of the two widths, the
variant, the file of eight hash words typed by the variant's width, and the transient datapath registers.
Notation and bit numbering: 00_scope.md R13 to R15.
-/

namespace Sys2Proof

/-- A byte: an 8-bit unsigned integer (00_scope.md R13). -/
abbrev Byte := BitVec 8

/-- A frame of the transport: a sequence of bytes, first byte at index 0 (00_scope.md R15, 30_encoding.md R100). -/
abbrev Frame := List Byte

/-- The two variants (00_scope.md R2); as a register bit 0 is SHA-256 and 1 is SHA-512 (10_state.md R33). -/
inductive Variant where
  | sha256
  | sha512
deriving DecidableEq, Repr, Inhabited

/-- Eight hash words `H[0..7]` of `w` bits each, `H[0]` first (10_state.md R34). -/
abbrev HashFile (w : Nat) := Vector (BitVec w) 8

/-- The register file `H[0..7]` with its width: "the model types `H` by the variant's width" (10_state.md R34).
The constructor is the home of the `variant` bit (10_state.md R33), so no state pairs words of one width with the
other variant. -/
inductive HashWords where
  | sha256 (h : HashFile 32)
  | sha512 (h : HashFile 64)
deriving DecidableEq, Repr, Inhabited

/-- The working variables `a..h` of one compression (10_state.md R40, 42_compress_sha256.md R182). -/
structure WorkVars (w : Nat) where
  a : BitVec w
  b : BitVec w
  c : BitVec w
  d : BitVec w
  e : BitVec w
  f : BitVec w
  g : BitVec w
  h : BitVec w
deriving DecidableEq, Repr, Inhabited

/-- The transient registers of the compressor at one width with `n = N` rounds: the message schedule `W[0..N-1]`, `a..h`,
`T1`, `T2` and the round index `t`, one of `0..N-1` (10_state.md R40). -/
structure DatapathRegs (w n : Nat) [NeZero n] where
  schedule : Vector (BitVec w) n
  vars     : WorkVars w
  t1       : BitVec w
  t2       : BitVec w
  t        : Fin n
deriving DecidableEq, Repr, Inhabited

/-- The transient datapath at the width last used (10_state.md R40): 64 words of 32 bits or 80 words of 64 bits. -/
inductive Datapath where
  | narrow (r : DatapathRegs 32 64)
  | wide   (r : DatapathRegs 64 80)
deriving DecidableEq, Repr, Inhabited

end Sys2Proof
end

