-- ==== Sys2Proof/Machine/Params.lean ====
section
/-!
DEFINITION. Machine/Params.lean: the variant-dependent parameters `w N B L C D` of 00_scope.md R11. Each is read from the
context's current variant (10_state.md R33).
-/

namespace Sys2Proof

/-- `w/8`: bytes in one word (00_scope.md R11). -/
def Variant.wordBytes : Variant → Nat
  | .sha256 => 4
  | .sha512 => 8

/-- `w`: word width in bits (00_scope.md R11). -/
def Variant.wordBits : Variant → Nat
  | .sha256 => 32
  | .sha512 => 64

/-- `N`: rounds per block, also the length of the message schedule (00_scope.md R11). -/
def Variant.rounds : Variant → Nat
  | .sha256 => 64
  | .sha512 => 80

/-- `B`: block size in bytes (00_scope.md R11). -/
def Variant.blockBytes : Variant → Nat
  | .sha256 => 64
  | .sha512 => 128

/-- `L`: size of the length field in bytes (00_scope.md R11). -/
def Variant.lengthBytes : Variant → Nat
  | .sha256 => 8
  | .sha512 => 16

/-- `C`: width of the bit counter in bits (00_scope.md R11, 92_eei_decisions.md D12). -/
def Variant.counterBits : Variant → Nat
  | .sha256 => 64
  | .sha512 => 128

/-- `D`: digest size in bytes (00_scope.md R11). -/
def Variant.digestBytes : Variant → Nat
  | .sha256 => 32
  | .sha512 => 64

/-- The variant's bit: 0 selects SHA-256 and 1 selects SHA-512 (10_state.md R33, 30_encoding.md R103). -/
def Variant.bit : Variant → BitVec 1
  | .sha256 => 0
  | .sha512 => 1

/-- The variant a bit `V` selects (10_state.md R33). -/
def Variant.ofBit (v : BitVec 1) : Variant :=
  if v = 0 then .sha256 else .sha512

/-- The register `variant`, kept as the width of the hash words (10_state.md R33, R34). -/
def HashWords.variant : HashWords → Variant
  | .sha256 _ => .sha256
  | .sha512 _ => .sha512

end Sys2Proof
end

