-- ==== Sys2Proof/Machine/Operands.lean ====
section
/-!
DEFINITION. Machine/Operands.lean: the byte-order primitives every operand goes through (20_memory.md R70 to R72): block
words, the length field, the digest words and the UPDATE length operand are all big-endian, and no mode switches that.
-/

namespace Sys2Proof

/-- The unsigned value of a byte sequence read big-endian, first byte most significant (20_memory.md R70). -/
def beNat (s : List Byte) : Nat :=
  s.foldl (fun acc x => acc * 256 + x.toNat) 0

/-- `BE_w(s, i)`: the `w`-bit word whose most significant byte is `s[i]` (20_memory.md R70). -/
def beWord (w : Nat) (s : List Byte) (i : Nat) : BitVec w :=
  BitVec.ofNat w (beNat ((s.drop i).take (w / 8)))

/-- `BEbytes(v, n)`: byte `k` is bits `8*(n-1-k)+7 .. 8*(n-1-k)` of `v`, so byte 0 is the most significant
(20_memory.md R71). -/
def beBytes (v n : Nat) : List Byte :=
  (List.range n).map fun k => BitVec.ofNat 8 (v >>> (8 * (n - 1 - k)))

/-- A word's `w/8` bytes, most significant first: `BEbytes(x, w/8)` (20_memory.md R71, 45_finalize.md R255). -/
def wordBytes {w : Nat} (x : BitVec w) : List Byte :=
  beBytes x.toNat (w / 8)

/-- The digest serialization: the eight words in index order, each big-endian, no truncation (45_finalize.md R255). -/
def HashWords.bytes : HashWords → List Byte
  | .sha256 h => h.toList.flatMap wordBytes
  | .sha512 h => h.toList.flatMap wordBytes

end Sys2Proof
end

