-- ==== Sys2Proof/Syntax.lean ====
section
/-!
DEFINITION. Syntax.lean: the three commands of the engine, one constructor per row of spec/opcode_table.json
(30_encoding.md R100 to R106). A command byte outside the table is no command: the decoder rejects it and the step
answers ILLEGAL_COMMAND (30_encoding.md R110).
-/

namespace Sys2Proof

/-- A command with its operands, as decoded from a frame. -/
inductive Instr where
  /-- INIT with the variant `V` (30_encoding.md R103). -/
  | init (v : Variant)
  /-- UPDATE with `LEN`, an unsigned 64-bit count of bytes, and the payload (30_encoding.md R104, R106). -/
  | update (len : BitVec 64) (payload : List Byte)
  /-- FINALIZE, no operand (30_encoding.md R105). -/
  | finalize
deriving DecidableEq, Repr

end Sys2Proof
end

