-- ==== Sys2Proof/WellFormed.lean ====
section
/-!
DEFINITION. WellFormed.lean: which terms of `Instr` are commands. The one check is the framing invariant of UPDATE:
the payload is exactly `LEN` bytes (30_encoding.md R104, R106). INIT and FINALIZE have no operand that could be wrong.
-/

namespace Sys2Proof

/-- The check: UPDATE's payload has `LEN` bytes (30_encoding.md R106). -/
def Instr.wellFormed : Instr → Bool
  | .init _ => true
  | .update len payload => payload.length == len.toNat
  | .finalize => true

/-- The check as a proposition `decide` can settle. -/
abbrev Instr.WellFormed (i : Instr) : Prop := i.wellFormed = true

end Sys2Proof
end

