-- ==== Sys2Proof/Decode.lean ====
section
/-!
DEFINITION. Decode.lean: the decoder, total on every byte sequence, and the encoder, both written from 30_encoding.md.
No state changes how a frame decodes (R107), so the decoder takes the frame alone. It rejects by name: a command byte
outside the four legal ones is `illegalCommand` (R110), a frame of the wrong length is `malformedFrame` (R106,
93_implementation_defined.md U7).
-/

namespace Sys2Proof

/-- Why a frame is no command. -/
inductive DecodeError where
  /-- The command byte is not `0x10`, `0x11`, `0x20` or `0x30`: the engine answers ILLEGAL_COMMAND (R110, R283). -/
  | illegalCommand
  /-- The transport delivered a frame of another length than its command has: no meaning in the spec (R106, U7). -/
  | malformedFrame
deriving DecidableEq, Repr

/-- `OP = CMD[7:4]` (R101). -/
def cmdOp (cmd : Byte) : BitVec 4 := cmd.extractLsb' 4 4

/-- `MOD = CMD[3:0]` (R101). -/
def cmdMod (cmd : Byte) : BitVec 4 := cmd.extractLsb' 0 4

/-- What a legal command byte selects: the command without its frame operands. -/
inductive Opcode where
  | init (v : Variant)
  | update
  | finalize
deriving DecidableEq, Repr

/-- The opcode map (R102): only INIT gives `MOD` a meaning, `MOD[0] = V`; every other value is illegal (R110). -/
def decodeOpcode (cmd : Byte) : Option Opcode :=
  if cmdOp cmd = 1 ∧ cmdMod cmd >>> 1 = 0 then some (.init (Variant.ofBit (cmd.extractLsb' 0 1)))
  else if cmdOp cmd = 2 ∧ cmdMod cmd = 0 then some .update
  else if cmdOp cmd = 3 ∧ cmdMod cmd = 0 then some .finalize
  else none

/-- UPDATE's operands from the bytes after `CMD`: `LEN = BE_64(f, 1)`, then exactly `LEN` payload bytes (R106). -/
def decodeUpdate (rest : List Byte) : Except DecodeError Instr :=
  let len := beWord 64 rest 0
  if 8 ≤ rest.length ∧ rest.length - 8 = len.toNat then .ok (.update len (rest.drop 8))
  else .error .malformedFrame

/-- The decoder (R102 to R107, R110). The command byte is looked at first: the rest of an illegal command's frame is
whatever the transport delimits. -/
def decodeFrame : Frame → Except DecodeError Instr
  | [] => .error .malformedFrame
  | cmd :: rest =>
    match decodeOpcode cmd with
    | none => .error .illegalCommand
    | some (.init v) => if rest = [] then .ok (.init v) else .error .malformedFrame
    | some .update => decodeUpdate rest
    | some .finalize => if rest = [] then .ok .finalize else .error .malformedFrame

/-- The encoder: the frame of a command (R103, R104, R105, R106). -/
def encode : Instr → Frame
  | .init v => [0x10#8 ||| v.bit.setWidth 8]
  | .update len payload => 0x20#8 :: (beBytes len.toNat 8 ++ payload)
  | .finalize => [0x30#8]

/-- Byte `k` of a frame whose bits the opcode table numbers from bit 0 of the first byte. -/
def tableByte (w k : Nat) : Byte := BitVec.ofNat 8 (w >>> (8 * k))

/-- How many bytes the frame of a table word has: a legal command byte fixes its length (R107), where an UPDATE frame
has `9 + LEN` bytes; an illegal command's frame is the `nbits` the table gives. -/
def tableFrameLength (nbits w : Nat) : Nat :=
  match decodeOpcode (tableByte w 0) with
  | none => nbits / 8
  | some (.init _) => max 1 (nbits / 8)
  | some .update => max (9 + (beWord 64 ((List.range 8).map fun k => tableByte w (k + 1)) 0).toNat) (nbits / 8)
  | some .finalize => max 1 (nbits / 8)

/-- The frame of a table word: its `nbits` bits, and 0 in every bit above them. -/
def tableFrame (nbits w : Nat) : Frame :=
  let v := w % 2 ^ nbits
  (List.range (tableFrameLength nbits v)).map (tableByte v)

/-- The instruction the decoder reads from a table word. -/
def decodeTableWord (nbits w : Nat) : Option Instr :=
  (decodeFrame (tableFrame nbits w)).toOption

end Sys2Proof
end

