-- ==== Sys2Proof/Machine/Functions.lean ====
section
/-!
DEFINITION. Machine/Functions.lean: the combinational word functions of the compressor (40_functions.md R140 to R153).
ADD (R140) is `BitVec`'s addition, which reduces modulo `2^w`. None has flags, exceptions or state. The width discipline
of R153 is the typing: a SHA-256 function takes and returns 32-bit words only, a SHA-512 function 64-bit words only.
-/

namespace Sys2Proof

/-- ROTR, the rotate right by a constant amount `0 < n < w` (40_functions.md R141). -/
def rotr {w : Nat} (x : BitVec w) (n : Nat) : BitVec w :=
  (x >>> n) ||| (x <<< (w - n))

/-- SHR, the logical right shift by a constant amount (40_functions.md R142). -/
def shr {w : Nat} (x : BitVec w) (n : Nat) : BitVec w :=
  x >>> n

/-- Ch, bitwise choose; no rotation (40_functions.md R143, 90_conflicts.md C1). -/
def ch {w : Nat} (x y z : BitVec w) : BitVec w :=
  (x &&& y) ^^^ (~~~x &&& z)

/-- Maj, bitwise majority; no rotation (40_functions.md R144, 90_conflicts.md C1). -/
def maj {w : Nat} (x y z : BitVec w) : BitVec w :=
  (x &&& y) ^^^ (x &&& z) ^^^ (y &&& z)

/-- Σ0 of SHA-256 (40_functions.md R145). -/
def bigSigma0W32 (x : BitVec 32) : BitVec 32 := rotr x 2 ^^^ rotr x 13 ^^^ rotr x 22

/-- Σ1 of SHA-256 (40_functions.md R146). -/
def bigSigma1W32 (x : BitVec 32) : BitVec 32 := rotr x 6 ^^^ rotr x 11 ^^^ rotr x 25

/-- σ0 (gamma0) of SHA-256 (40_functions.md R147). -/
def gamma0W32 (x : BitVec 32) : BitVec 32 := rotr x 7 ^^^ rotr x 18 ^^^ shr x 3

/-- σ1 (gamma1) of SHA-256 (40_functions.md R148). -/
def gamma1W32 (x : BitVec 32) : BitVec 32 := rotr x 17 ^^^ rotr x 19 ^^^ shr x 10

/-- Σ0 of SHA-512 (40_functions.md R149). -/
def bigSigma0W64 (x : BitVec 64) : BitVec 64 := rotr x 28 ^^^ rotr x 34 ^^^ rotr x 39

/-- Σ1 of SHA-512 (40_functions.md R150). -/
def bigSigma1W64 (x : BitVec 64) : BitVec 64 := rotr x 14 ^^^ rotr x 18 ^^^ rotr x 41

/-- σ0 (gamma0) of SHA-512 (40_functions.md R151). -/
def gamma0W64 (x : BitVec 64) : BitVec 64 := rotr x 1 ^^^ rotr x 8 ^^^ shr x 7

/-- σ1 (gamma1) of SHA-512 (40_functions.md R152). -/
def gamma1W64 (x : BitVec 64) : BitVec 64 := rotr x 19 ^^^ rotr x 61 ^^^ shr x 6

end Sys2Proof
end

