-- ==== Sys2Proof/Machine/Compress.lean ====
section
/-!
DEFINITION. Machine/Compress.lean: the block compressors COMPRESS256 and COMPRESS512 (42_compress_sha256.md,
43_compress_sha512.md) and the dispatch COMPRESS (R211). The two have one structure at two widths ("structurally
identical"), so the steps are written once over a record of the variant's functions and constants; the compressor is a
pure function of its two operands (R189, R209). The last section is the 16-word circular-window datapath of R190, which
the machine does not use: it is here so that its equality with the function can be stated.
-/

namespace Sys2Proof

/-- What distinguishes the two compressors: `N`, the Σ and σ functions and the round constants (00_scope.md R11). -/
structure RoundFns (w : Nat) where
  rounds    : Nat
  bigSigma0 : BitVec w → BitVec w
  bigSigma1 : BitVec w → BitVec w
  gamma0    : BitVec w → BitVec w
  gamma1    : BitVec w → BitVec w
  k         : List (BitVec w)

/-- SHA-256: 64 rounds (42_compress_sha256.md R186). -/
def fns256 : RoundFns 32 where
  rounds    := 64
  bigSigma0 := bigSigma0W32
  bigSigma1 := bigSigma1W32
  gamma0    := gamma0W32
  gamma1    := gamma1W32
  k         := k256

/-- SHA-512: 80 rounds (43_compress_sha512.md R206). -/
def fns512 : RoundFns 64 where
  rounds    := 80
  bigSigma0 := bigSigma0W64
  bigSigma1 := bigSigma1W64
  gamma0    := gamma0W64
  gamma1    := gamma1W64
  k         := k512

/-- Step 1, block parse: `W[i] <- BE_w(M, (w/8)*i)` for `i` in `0..15` (R180, R200). -/
def parseBlock (w : Nat) (m : List Byte) : List (BitVec w) :=
  (List.range 16).map fun i => beWord w m (w / 8 * i)

/-- The schedule word `W[t]` for `t = |W| >= 16`:
`σ1(W[t-2]) + W[t-7] + σ0(W[t-15]) + W[t-16]` (R181, R201). -/
def nextWord {w : Nat} (p : RoundFns w) (ws : List (BitVec w)) : BitVec w :=
  p.gamma1 (ws.getD (ws.length - 2) 0) + ws.getD (ws.length - 7) 0
    + p.gamma0 (ws.getD (ws.length - 15) 0) + ws.getD (ws.length - 16) 0

/-- Step 2, schedule expansion: append `n` further words in order (R181, R201). -/
def expandSchedule {w : Nat} (p : RoundFns w) : Nat → List (BitVec w) → List (BitVec w)
  | 0, ws => ws
  | n + 1, ws => expandSchedule p n (ws ++ [nextWord p ws])

/-- The message schedule `W[0..N-1]` of a block (R180, R181, R200, R201). -/
def messageSchedule {w : Nat} (p : RoundFns w) (m : List Byte) : List (BitVec w) :=
  expandSchedule p (p.rounds - 16) (parseBlock w m)

/-- Step 3: the working variables take the hash words in index order (R182, R202). -/
def loadVars {w : Nat} (H : HashFile w) : WorkVars w :=
  ⟨H[0], H[1], H[2], H[3], H[4], H[5], H[6], H[7]⟩

/-- `T1 = h + Σ1(e) + Ch(e,f,g) + K[t] + W[t]` (R183, R203). -/
def temp1 {w : Nat} (p : RoundFns w) (k wt : BitVec w) (v : WorkVars w) : BitVec w :=
  v.h + p.bigSigma1 v.e + ch v.e v.f v.g + k + wt

/-- `T2 = Σ0(a) + Maj(a,b,c)` (R184, R204). -/
def temp2 {w : Nat} (p : RoundFns w) (v : WorkVars w) : BitVec w :=
  p.bigSigma0 v.a + maj v.a v.b v.c

/-- One round: all eight assignments simultaneous, `e <- d + T1` and `a <- T1 + T2` (R185, R205,
90_conflicts.md C5). -/
def mixRound {w : Nat} (p : RoundFns w) (k wt : BitVec w) (v : WorkVars w) : WorkVars w where
  a := temp1 p k wt v + temp2 p v
  b := v.a
  c := v.b
  d := v.c
  e := v.d + temp1 p k wt v
  f := v.e
  g := v.f
  h := v.g

/-- Rounds `0..n-1` in order, round `t` reading `K[t]` and `W[t]` (R186, R206). -/
def runRounds {w : Nat} (p : RoundFns w) (ws : List (BitVec w)) (n : Nat) (v : WorkVars w) : WorkVars w :=
  (List.range n).foldl (fun v t => mixRound p (p.k.getD t 0) (ws.getD t 0) v) v

/-- Step 5, the final addition into the input state (R187, R207). -/
def addBack {w : Nat} (H : HashFile w) (v : WorkVars w) : HashFile w :=
  #v[H[0] + v.a, H[1] + v.b, H[2] + v.c, H[3] + v.d, H[4] + v.e, H[5] + v.f, H[6] + v.g, H[7] + v.h]

/-- The five steps over one block (R188, R208). -/
def compressBlock {w : Nat} (p : RoundFns w) (H : HashFile w) (m : List Byte) : HashFile w :=
  addBack H (runRounds p (messageSchedule p m) p.rounds (loadVars H))

/-- COMPRESS256 (42_compress_sha256.md R188). -/
def compress256 (H : HashFile 32) (m : List Byte) : HashFile 32 :=
  compressBlock fns256 H m

/-- COMPRESS512 (43_compress_sha512.md R208). -/
def compress512 (H : HashFile 64) (m : List Byte) : HashFile 64 :=
  compressBlock fns512 H m

/-- COMPRESS(H, M): the compressor of the current variant (43_compress_sha512.md R211). -/
def compressHash : HashWords → List Byte → HashWords
  | .sha256 H, m => .sha256 (compress256 H m)
  | .sha512 H, m => .sha512 (compress512 H m)

/-! ## The 16-word circular window of R190 and R210 -/

/-- Round `t` of the windowed datapath: for `t >= 16` it computes `W[t]` from the words still in the window and stores
it over `W[t-16]`; then it mixes (42_compress_sha256.md R190). -/
def windowRound {w : Nat} (p : RoundFns w) (x : Vector (BitVec w) 16 × WorkVars w) (t : Nat) :
    Vector (BitVec w) 16 × WorkVars w :=
  let win := x.1
  let wt := if t < 16 then win.toList.getD t 0 else
    p.gamma1 (win.toList.getD ((t - 2) % 16) 0) + win.toList.getD ((t - 7) % 16) 0
      + p.gamma0 (win.toList.getD ((t - 15) % 16) 0) + win.toList.getD ((t - 16) % 16) 0
  (win.setIfInBounds (t % 16) wt, mixRound p (p.k.getD t 0) wt x.2)

/-- The window filled by the block parse (R180, R200). -/
def windowOf (w : Nat) (m : List Byte) : Vector (BitVec w) 16 :=
  Vector.ofFn fun i => beWord w m (w / 8 * i.val)

/-- The compressor with a window of 16 schedule words instead of `N` (R190, R210). -/
def compressWindowed {w : Nat} (p : RoundFns w) (H : HashFile w) (m : List Byte) : HashFile w :=
  addBack H ((List.range p.rounds).foldl (windowRound p) (windowOf w m, loadVars H)).2

end Sys2Proof
end

