-- ==== Sys2Proof/Config.lean ====
section
/-!
DEFINITION. Config.lean: the values the spec leaves open, as constants with no body. The spec's own word for them is a
draw: "an arbitrary value under no law" (92_eei_decisions.md D25, 93_implementation_defined.md U1, U2, U9, U11). Each
function is applied to the counter `draws` of the state, which every use advances, so no two uses of one function in one
run are known equal, and nothing proved in this package knows one of the values. THE MODEL'S CHOICE
(notes/assumptions/2.md, 14.md): the functions are the same for every run and for every engine of a system, so two runs,
or two engines, that draw at the same count get provably equal values, which the spec does not say.
-/

namespace Sys2Proof

/-- `variant` and `H[0..7]` after a reset that arrives while the host is driving the engine (10_state.md R48). -/
opaque Config.freeHash : Nat → HashWords

/-- The 128 bytes of `buf` after such a reset (10_state.md R48) and after a successful FINALIZE
(45_finalize.md R256: "`buf` bytes unspecified"). -/
opaque Config.freeBuf : Nat → Vector Byte 128

/-- `buf_len` after such a reset: any integer of the register's range 0..128 (10_state.md R36, R48). -/
opaque Config.freeBufLen : Nat → Fin 129

/-- The 128-bit register `bit_count` after such a reset (10_state.md R38, R48). -/
opaque Config.freeBitCount : Nat → BitVec 128

/-- The transient datapath, at whichever width, after such a reset (10_state.md R48). -/
opaque Config.freeDatapath : Nat → Datapath

/-- The transient datapath after a SHA-256 compression: "their values between commands are unspecified"
(10_state.md R40). -/
opaque Config.freeNarrow : Nat → DatapathRegs 32 64

/-- The transient datapath after a SHA-512 compression (10_state.md R40). -/
opaque Config.freeWide : Nat → DatapathRegs 64 80

end Sys2Proof
end

