-- ==== Sys2Proof/Machine/State.lean ====
section
/-!
DEFINITION. Machine/State.lean: everything the spec gives the engine, as plain data (10_state.md), with the host's side of
the command interface (the inputs still to come and the responses already returned), why a step can stop, and the state
after reset.
-/

namespace Sys2Proof.Machine

/-- The four status codes of a response (30_encoding.md R108); their bytes are in Flags.lean. -/
inductive Status where
  | ok
  | alreadyFinalized
  | notInitialized
  | illegalCommand
deriving DecidableEq, Repr

/-- The state of the padding machine of FINALIZE (45_finalize.md R257). -/
inductive FState where
  | idle
  | mark
  | zero
  | flush
  | len
  | last
  | out
deriving DecidableEq, Repr

/-- The one digest context (10_state.md R30). The register `variant` (R33) is kept as the width of `hash` (R34) and read
by `Context.variant`. -/
structure Context where
  /-- A computation has been started by INIT (R31). -/
  ctxValid  : Bool
  /-- FINALIZE has returned the digest (R32). -/
  finalized : Bool
  /-- `H[0..7]`, typed by the variant's width (R33, R34). -/
  hash      : HashWords
  /-- The block buffer: 128 bytes built, the first `B` used (R35). -/
  buf       : Vector Byte 128
  /-- How many leading bytes of `buf` are valid (R36). -/
  bufLen    : Nat
  /-- The bit counter, a 128-bit register of which SHA-256 uses the low 64 bits (R38). -/
  bitCount  : BitVec 128
deriving DecidableEq, Repr

/-- The register `variant` (10_state.md R33). -/
def Context.variant (c : Context) : Variant := c.hash.variant

/-- What the host does next at the engine's interface. A `command` is one command frame as the transport delimits it
(30_encoding.md R100). A `reset` arrives between commands (70_reset_and_hazards.md R320); a `commandCutByReset` is a
command in progress when a reset arrives (R321). -/
inductive HostInput where
  | command (frame : Frame)
  | reset
  | commandCutByReset (frame : Frame)
deriving DecidableEq, Repr

/-- The state of one engine and of the host that drives it. -/
structure State where
  /-- The digest context (10_state.md R30 to R38). -/
  ctx       : Context
  /-- `W`, `a..h`, `T1`, `T2`, `t` (10_state.md R40). -/
  datapath  : Datapath
  /-- The padding machine's state (10_state.md R41). -/
  fstate    : FState
  /-- The host's straight-line list of inputs still to come, the next one first (44_init_update.md R228,
  20_memory.md R82). -/
  inputs    : List HostInput
  /-- The response frames returned so far, oldest first (20_memory.md R82, 30_encoding.md R109). -/
  responses : List Frame
  /-- The model's own counter of free values drawn so far (notes/assumptions/2.md); the spec has no such register. -/
  draws     : Nat
deriving DecidableEq, Repr

/-- Why the machine faults: never. "No behaviour in this spec is `fault` or `stuck`: the engine has no trap ... and no
state from which it cannot accept a command" (93_implementation_defined.md, end; 60_exceptions.md R288). An error is a
response (60_exceptions.md R280). -/
inductive Fault where
deriving DecidableEq, Repr

/-- Why a step is refused. -/
inductive Refusal where
  /-- An instruction with no meaning yet; raised by exec's refused arms only, of which there are none. Safe. -/
  | notModelled (mnemonic : String)
  /-- The transport delivered a frame of the wrong length: "a transport error with no meaning in this spec: a model
  refuses it" (30_encoding.md R106, 93_implementation_defined.md U7). Raised by step. Safe. -/
  | malformedFrame
  /-- An UPDATE with `bit_count + 8*LEN >= 2^C`: "A model must refuse (give no step to)" it (44_init_update.md R227,
  93_implementation_defined.md U3). Raised by UPDATE. Safe. -/
  | counterLimit
deriving DecidableEq, Repr

/-- The state after reset (10_state.md R48, 70_reset_and_hazards.md R320): `ctx_valid = 0`, `finalized = 0`, the padding
machine in `F_IDLE`. Every other register is unspecified there and has the value notes/assumptions/1.md names, all
zero. The host has issued nothing yet and nothing has been returned. -/
def State.reset : State where
  ctx :=
    { ctxValid  := false
      finalized := false
      hash      := .sha256 (Vector.replicate 8 0)
      buf       := Vector.replicate 128 0
      bufLen    := 0
      bitCount  := 0 }
  datapath  := .narrow ⟨Vector.replicate 64 0, ⟨0, 0, 0, 0, 0, 0, 0, 0⟩, 0, 0, 0⟩
  fstate    := .idle
  inputs    := []
  responses := []
  draws     := 0

end Sys2Proof.Machine
end

