-- ==== Sys2Proof/Machine/Flags.lean ====
section
/-!
DEFINITION. Machine/Flags.lean: the only two flags, `ctx_valid` and `finalized` (10_state.md R46), the phase they give
(R37), the guard of UPDATE and FINALIZE with its precedence (60_exceptions.md R286), and the status bytes
(30_encoding.md R108). There are no condition codes.
-/

namespace Sys2Proof.Machine

/-- The phase, derived from the two flags (10_state.md R37). -/
inductive Phase where
  | idle
  | absorbing
  | finalized
  /-- `ctx_valid = 0, finalized = 1`: "no rule produces it" (R37, 93_implementation_defined.md U8). -/
  | unreachable
deriving DecidableEq, Repr

/-- The phase table (10_state.md R37). -/
def phase (c : Context) : Phase :=
  match c.ctxValid, c.finalized with
  | false, false => .idle
  | true, false => .absorbing
  | true, true => .finalized
  | false, true => .unreachable

/-- The guard of UPDATE and FINALIZE: `ctx_valid = 0` is looked at before `finalized = 1`
(44_init_update.md R221, 45_finalize.md R250, 60_exceptions.md R281, R282, R286). -/
def guardStatus (c : Context) : Option Status :=
  if c.ctxValid = false then some .notInitialized
  else if c.finalized = true then some .alreadyFinalized
  else none

/-- The status byte (30_encoding.md R108). -/
def statusByte : Status → Byte
  | .ok => 0x00#8
  | .alreadyFinalized => 0x01#8
  | .notInitialized => 0x02#8
  | .illegalCommand => 0x03#8

/-- A response frame: the status byte, then the digest bytes if there are any (30_encoding.md R109). -/
def responseFrame (st : Status) (digest : List Byte) : Frame :=
  statusByte st :: digest

end Sys2Proof.Machine
end

