-- ==== Sys2Proof/Machine/Ops.lean ====
section
/-!
DEFINITION. Machine/Ops.lean: the operations the commands share: returning a response, ending a command with an error (the
engine's only exception mechanism, 60_exceptions.md R280 to R290, with nothing to save and nothing to return from), the
byte step ABSORB and what it is made of (44_init_update.md R222, R229), the counter update (R223), and a reset
(70_reset_and_hazards.md R320). The engine has no memory but the register file `buf` (20_memory.md R74), which is
written one byte at a time at `buf_len` and read only when a whole block is compressed.
-/

namespace Sys2Proof.Machine

/-- `respond(status, digest)`: the command's one response, after those already returned
(00_scope.md R16, 20_memory.md R82, 30_encoding.md R109). -/
def respond (st : Status) (digest : List Byte) (s : State) : State :=
  { s with responses := s.responses ++ [responseFrame st digest] }

/-- `raise <Error>`: the command ends at once, the status byte is the whole response and no state element changes
(60_exceptions.md R280). No state is saved, no mode changes and control goes nowhere (R288), so there is no return from
it either (R289). -/
def raise (e : Status) (s : State) : Host.Outcome State Fault Refusal :=
  .next (respond e [] s)

/-- `buf[buf_len] <- x; buf_len <- buf_len + 1`: the one store addressing mode (44_init_update.md R229). -/
def pushByte (x : Byte) (s : State) : State :=
  { s with ctx := { s.ctx with
      buf    := s.ctx.buf.setIfInBounds s.ctx.bufLen x
      bufLen := s.ctx.bufLen + 1 } }

/-- `BufRead(0, n)`: the first `n` bytes of `buf` (20_memory.md R74). -/
def bufRead (c : Context) (n : Nat) : List Byte :=
  c.buf.toList.take n

/-- The datapath after a compression: dead, with unspecified content (10_state.md R40, 42_compress_sha256.md R189,
93_implementation_defined.md U11). -/
def deadDatapath (v : Variant) (n : Nat) : Datapath :=
  match v with
  | .sha256 => .narrow (Config.freeNarrow n)
  | .sha512 => .wide (Config.freeWide n)

/-- `H <- COMPRESS(H, BufRead(0, B)); buf_len <- 0`, H replaced wholesale (44_init_update.md R222). -/
def compressBuffer (s : State) : State :=
  { s with
    ctx      := { s.ctx with
      hash   := compressHash s.ctx.hash (bufRead s.ctx s.ctx.variant.blockBytes)
      bufLen := 0 }
    datapath := deadDatapath s.ctx.variant s.draws
    draws    := s.draws + 1 }

/-- ABSORB(x), the byte step of UPDATE and of the padding (44_init_update.md R222). -/
def absorb (x : Byte) (s : State) : State :=
  let s1 := pushByte x s
  if s1.ctx.bufLen = s1.ctx.variant.blockBytes then compressBuffer s1 else s1

/-- A sequence of bytes absorbed in order, byte 0 first (20_memory.md R83, 44_init_update.md R221). -/
def absorbAll (xs : List Byte) (s : State) : State :=
  xs.foldl (fun s x => absorb x s) s

/-- `bit_count <- (bit_count + 8*LEN) mod 2^C`, once (44_init_update.md R223). -/
def addBits (len : Nat) (s : State) : State :=
  { s with ctx := { s.ctx with
      bitCount := BitVec.ofNat 128 ((s.ctx.bitCount.toNat + 8 * len) % 2 ^ s.ctx.variant.counterBits) } }

/-- The context after a reset (10_state.md R48): the flags are 0 and every other element is a draw. Two engines, or two runs,
that reset at the same count of draws get the same context: the model's choice (notes/assumptions/2.md, 14.md). -/
def resetContext (n : Nat) : Context where
  ctxValid  := false
  finalized := false
  hash      := Config.freeHash n
  buf       := Config.freeBuf n
  bufLen    := (Config.freeBufLen n).val
  bitCount  := Config.freeBitCount n

/-- A reset of the engine, in whatever state it is: no response, no compression (70_reset_and_hazards.md R320, R321). The
host's list of inputs and the responses it already has are not the engine's. -/
def resetEngine (s : State) : State :=
  { s with
    ctx      := resetContext s.draws
    datapath := Config.freeDatapath s.draws
    fstate   := .idle
    draws    := s.draws + 1 }

end Sys2Proof.Machine
end

