-- ==== Sys2Proof/Machine/Finalize.lean ====
section
/-!
DEFINITION. Machine/Finalize.lean: the meaning of FINALIZE as the command rule gives it (45_finalize.md R250 to R256), and
beside it the same behaviour as the padding state machine of R257, over the register `fstate`. The machine runs the
first; that the second equals it is a statement of Certificates/Slice0/Obligations.lean.
-/

namespace Sys2Proof.Machine

/-- `Z`, the number of zero bytes after the mark for a message that leaves `r` bytes in the buffer:
`(B - L - (r + 1)) mod B`, in `0..B-1` (45_finalize.md R252, R259). -/
def zeroCount (v : Variant) (r : Nat) : Nat :=
  (((v.blockBytes : Int) - v.lengthBytes - (r + 1)) % v.blockBytes).toNat

/-- Step 1: `PAD(0x80)` (45_finalize.md R251). -/
def padMark (s : State) : State := absorb 0x80#8 s

/-- Step 2: `while buf_len != B - L: PAD(0x00)` (45_finalize.md R252), run at most `n` times; `B` are always enough. -/
def padZeros : Nat → State → State
  | 0, s => s
  | n + 1, s =>
    if s.ctx.bufLen = s.ctx.variant.blockBytes - s.ctx.variant.lengthBytes then s else padZeros n (absorb 0x00#8 s)

/-- The length field: `BEbytes(bit_count, L)` (45_finalize.md R253). -/
def lengthField (c : Context) : List Byte :=
  beBytes c.bitCount.toNat c.variant.lengthBytes

/-- Step 3: the length field through the byte step; the last byte fills the buffer (45_finalize.md R253, R254). -/
def padLength (s : State) : State := absorbAll (lengthField s.ctx) s

/-- Step 5 and the end state: the digest is returned, the context is finalized, and the bytes of `buf` are unspecified
from here on (45_finalize.md R255, R256). -/
def emitDigest (s : State) : State :=
  respond .ok s.ctx.hash.bytes
    { s with
      ctx   := { s.ctx with finalized := true, buf := Config.freeBuf s.draws }
      draws := s.draws + 1 }

/-- The padding of an accepted FINALIZE, which compresses the last block or blocks (45_finalize.md R251 to R254). -/
def padMessage (s : State) : State :=
  padLength (padZeros s.ctx.variant.blockBytes (padMark s))

/-- FINALIZE (45_finalize.md R250). -/
def execFinalize (s : State) : Host.Outcome State Fault Refusal :=
  match guardStatus s.ctx with
  | some e => raise e s
  | none => .next (emitDigest (padMessage s))

/-! ## The padding and finalization state machine (45_finalize.md R257) -/

/-- Write the bytes `xs` at `buf[i], buf[i+1], ...`. -/
def bufWriteAt (buf : Vector Byte 128) : Nat → List Byte → Vector Byte 128
  | _, [] => buf
  | i, x :: xs => bufWriteAt (buf.setIfInBounds i x) (i + 1) xs

/-- The next state after a byte was pushed in `F_MARK` or `F_ZERO`: `F_FLUSH` if the buffer is full, else `F_ZERO`. -/
def afterPush (s : State) : State :=
  { s with fstate := if s.ctx.bufLen = s.ctx.variant.blockBytes then .flush else .zero }

/-- One arrow of the table of R257. In `F_IDLE` the machine waits for a FINALIZE. -/
def fsmStep (s : State) : State :=
  match s.fstate with
  | .idle => s
  | .mark => afterPush (pushByte 0x80#8 s)
  | .zero =>
    if s.ctx.bufLen = s.ctx.variant.blockBytes - s.ctx.variant.lengthBytes then { s with fstate := .len }
    else afterPush (pushByte 0x00#8 s)
  | .flush => { compressBuffer s with fstate := .zero }
  | .len =>
    { s with
      ctx    := { s.ctx with
        buf    := bufWriteAt s.ctx.buf (s.ctx.variant.blockBytes - s.ctx.variant.lengthBytes) (lengthField s.ctx)
        bufLen := s.ctx.variant.blockBytes }
      fstate := .last }
  | .last => { compressBuffer s with fstate := .out }
  | .out => { emitDigest s with fstate := .idle }

/-- `n` arrows. -/
def fsmRun : Nat → State → State
  | 0, s => s
  | n + 1, s => fsmRun n (fsmStep s)

/-- How many arrows a FINALIZE takes from `F_MARK` with `r = buf_len`: `F_MARK`, `Z + 1` times `F_ZERO`, `F_FLUSH` once
when `r >= B - L`, then `F_LEN`, `F_LAST`, `F_OUT` (45_finalize.md R257). -/
def fsmLength (v : Variant) (r : Nat) : Nat :=
  1 + (zeroCount v r + 1) + (if v.blockBytes - v.lengthBytes ≤ r then 1 else 0) + 3

/-- FINALIZE run by the state machine: accepted by the guards of R250, it leaves `F_IDLE` for `F_MARK` and returns
there (45_finalize.md R257). -/
def execFinalizeFsm (s : State) : Host.Outcome State Fault Refusal :=
  match guardStatus s.ctx with
  | some e => raise e s
  | none => .next (fsmRun (fsmLength s.ctx.variant s.ctx.bufLen) { s with fstate := .mark })

end Sys2Proof.Machine
end

