-- ==== Sys2Proof/Machine/InitUpdate.lean ====
section
/-!
DEFINITION. Machine/InitUpdate.lean: the meanings of INIT and UPDATE (44_init_update.md).
-/

namespace Sys2Proof.Machine

/-- The fresh digest context of a variant: "initial hash words = the constants-table initial values, buffer empty,
counter zero, finalized = false"; the old buffer bytes stay in `buf` (44_init_update.md R220). -/
def freshContext (v : Variant) (c : Context) : Context where
  ctxValid  := true
  finalized := false
  hash      := initialHash v
  buf       := c.buf
  bufLen    := 0
  bitCount  := 0

/-- INIT(V): succeeds in every phase and discards an open computation (44_init_update.md R220). -/
def execInit (v : Variant) (s : State) : Host.Outcome State Fault Refusal :=
  .next (respond .ok [] { s with ctx := freshContext v s.ctx })

/-- What an accepted UPDATE does in the hardware: the payload bytes in order, then the counter modulo `2^C`
(44_init_update.md R221, R222, R223). -/
def absorbSlice (len : BitVec 64) (payload : List Byte) (s : State) : State :=
  addBits len.toNat (absorbAll payload s)

/-- UPDATE(LEN, payload): the guards, then the refusal that R227 prescribes to a model, then the slice
(44_init_update.md R221, R227; 60_exceptions.md R286). -/
def execUpdate (len : BitVec 64) (payload : List Byte) (s : State) : Host.Outcome State Fault Refusal :=
  match guardStatus s.ctx with
  | some e => raise e s
  | none =>
    if s.ctx.bitCount.toNat + 8 * len.toNat ≥ 2 ^ s.ctx.variant.counterBits then .refused .counterLimit
    else .next (respond .ok [] (absorbSlice len payload s))

end Sys2Proof.Machine
end

