-- ==== Sys2Proof/Machine/Dispatch.lean ====
section
/-!
DEFINITION. Machine/Dispatch.lean: one arm per command (60_exceptions.md R286: INIT runs in every phase; UPDATE and FINALIZE
look at their guards themselves).
-/

namespace Sys2Proof.Machine

def exec (i : Instr) (s : State) : Host.Outcome State Fault Refusal :=
  match i with
  | .init v => Sys2Proof.Machine.execInit v s
  | .update len payload => Sys2Proof.Machine.execUpdate len payload s
  | .finalize => Sys2Proof.Machine.execFinalize s

end Sys2Proof.Machine
end

