-- ==== Sys2Proof/Machine/Transaction.lean ====
section
/-!
DEFINITION. Machine/Transaction.lean: what one input of the host does (30_encoding.md R100, R107, R110;
70_reset_and_hazards.md R320, R321), and how a frame is put where the step takes its next command from.
-/

namespace Sys2Proof.Machine

/-- One transaction: decode the frame; run the command; answer ILLEGAL_COMMAND with the whole frame discarded and no
state changed (30_encoding.md R110, 60_exceptions.md R283, R286); refuse a frame of the wrong length (R106). -/
def runFrame (f : Frame) (s : State) : Host.Outcome State Fault Refusal :=
  match decodeFrame f with
  | .ok i => exec i s
  | .error .illegalCommand => raise .illegalCommand s
  | .error .malformedFrame => .refused .malformedFrame

/-- One input of the host. A command cut by a reset "returns no response, and the state is the reset state ...,
whatever part of the command had run" (70_reset_and_hazards.md R321). -/
def runInput (x : HostInput) (s : State) : Host.Outcome State Fault Refusal :=
  match x with
  | .command f => runFrame f s
  | .reset => .next (resetEngine s)
  | .commandCutByReset _ => .next (resetEngine s)

/-- The left fold of the transactions over a sequence of frames, in the order issued (20_memory.md R82). -/
def runFrames : List Frame → State → Host.Outcome State Fault Refusal
  | [], s => .next s
  | f :: fs, s =>
    match runFrame f s with
    | .next t => runFrames fs t
    | .fault r => .fault r
    | .refused r => .refused r

/-- The host's next input is the command frame `f`. -/
def issueFrame (f : Frame) (s : State) : State :=
  { s with inputs := .command f :: s.inputs }

end Sys2Proof.Machine
end

