-- ==== Sys2Proof/Machine/Step.lean ====
section
/-!
DEFINITION. Machine/Step.lean: one step of the machine is one input of the host, taken in the order the host issues them,
each complete before the next begins (20_memory.md R82, 92_eei_decisions.md D1). With no input to take, the engine
"holds its state unchanged indefinitely" (60_exceptions.md R297).
-/

namespace Sys2Proof.Machine

def step (s : State) : Host.Outcome State Fault Refusal :=
  match s.inputs with
  | [] => .next s
  | x :: rest => runInput x { s with inputs := rest }

/-- `k` steps, stopping at the first refusal: `Host.Core.run` at this machine (Laws/Step.lean). -/
def runSteps : Nat → State → Host.Outcome State Fault Refusal
  | 0, s => .next s
  | k + 1, s =>
    match step s with
    | .next t => runSteps k t
    | .fault r => .fault r
    | .refused r => .refused r

/-- The host's next input is the command whose bits are `w`, numbered as the opcode table numbers them. -/
def State.withFetchWord (s : State) (nbits w : Nat) : State :=
  issueFrame (tableFrame nbits w) s

end Sys2Proof.Machine
end

