-- ==== Sys2Proof/Machine/Assembler.lean ====
section
/-!
DEFINITION. Machine/Assembler.lean: the command-list syntax and the pseudo-instructions (30_encoding.md R113, R114), as
functions on lists of characters. The engine does not see this notation; it names command lists in writing.
-/

namespace Sys2Proof.Machine

/-- One line of a command list, its byte operand already put together. -/
inductive AsmCommand where
  | init (v : Variant)
  | update (bytes : List Byte)
  | finalize
  /-- The pseudo-instruction `HASH <variant>, <bytes>` (30_encoding.md R114). -/
  | hash (v : Variant) (bytes : List Byte)
deriving DecidableEq, Repr

/-- UPDATE with `LEN = |<bytes>|` (30_encoding.md R113). THE MODEL'S CHOICE (notes/assumptions/19.md): the spec does not say
what the notation gives for `2^64` bytes or more, where `|<bytes>|` does not fit `LEN`; here `LEN` is then taken modulo
`2^64`, which is no well-formed command, and the step refuses its frame as malformed. -/
def updateOf (bytes : List Byte) : Instr :=
  .update (BitVec.ofNat 64 bytes.length) bytes

/-- The expansion of a line into commands (30_encoding.md R113, R114). -/
def expandCommand : AsmCommand → List Instr
  | .init v => [.init v]
  | .update bytes => [updateOf bytes]
  | .finalize => [.finalize]
  | .hash v bytes => [.init v, updateOf bytes, .finalize]

/-- `cs` without the leading characters `kw`. -/
def expectChars : List Char → List Char → Option (List Char)
  | [], cs => some cs
  | k :: ks, c :: cs => if k = c then expectChars ks cs else none
  | _ :: _, [] => none

/-- `cs` without leading blanks. -/
def skipBlanks (cs : List Char) : List Char :=
  cs.dropWhile fun c => c = ' ' || c = '\t'

/-- Nothing but blanks and a comment is left: `;` starts a comment to the end of the line. -/
def atLineEnd (cs : List Char) : Bool :=
  match skipBlanks cs with
  | [] => true
  | c :: _ => c = ';'

/-- The value of a hexadecimal digit. -/
def hexDigit (c : Char) : Option Nat :=
  if '0' ≤ c ∧ c ≤ '9' then some (c.toNat - 48)
  else if 'A' ≤ c ∧ c ≤ 'F' then some (c.toNat - 55)
  else if 'a' ≤ c ∧ c ≤ 'f' then some (c.toNat - 87)
  else none

/-- The rest of a quoted piece: each character is its ASCII byte; `\"` and `\\` are the only escapes. -/
def textPiece : List Char → Option (List Byte × List Char)
  | [] => none
  | '"' :: rest => some ([], rest)
  | '\\' :: '"' :: rest => (textPiece rest).map fun (bs, r) => (0x22#8 :: bs, r)
  | '\\' :: '\\' :: rest => (textPiece rest).map fun (bs, r) => (0x5C#8 :: bs, r)
  | '\\' :: _ => none
  | c :: rest =>
    if c.toNat < 128 then (textPiece rest).map fun (bs, r) => (BitVec.ofNat 8 c.toNat :: bs, r) else none

/-- Pairs of hexadecimal digits, bytes in order; none is the empty sequence. -/
def hexPiece : List Char → List Byte × List Char
  | a :: b :: rest =>
    match hexDigit a, hexDigit b with
    | some x, some y => let (bs, r) := hexPiece rest; (BitVec.ofNat 8 (16 * x + y) :: bs, r)
    | _, _ => ([], a :: b :: rest)
  | cs => ([], cs)

/-- A decimal count; `acc` is what was read so far. -/
def decimal (acc : Nat) : List Char → Nat × List Char
  | [] => (acc, [])
  | c :: cs => if '0' ≤ c ∧ c ≤ '9' then decimal (10 * acc + (c.toNat - 48)) cs else (acc, c :: cs)

/-- The byte of a repetition: `0xHH` or `'c'`. -/
def repByte : List Char → Option (Byte × List Char)
  | '\'' :: c :: '\'' :: rest => if c.toNat < 128 then some (BitVec.ofNat 8 c.toNat, rest) else none
  | '0' :: 'x' :: a :: b :: rest =>
    match hexDigit a, hexDigit b with
    | some x, some y => some (BitVec.ofNat 8 (16 * x + y), rest)
    | _, _ => none
  | _ => none

/-- The rest of `rep(<byte>, <count>)` after its opening bracket. -/
def repPiece (cs : List Char) : Option (List Byte × List Char) := do
  let (b, r1) ← repByte (skipBlanks cs)
  let r2 ← expectChars [','] (skipBlanks r1)
  let (n, r3) := decimal 0 (skipBlanks r2)
  if r3.length = (skipBlanks r2).length then none
  let r4 ← expectChars [')'] (skipBlanks r3)
  some (List.replicate n b, r4)

/-- One `<piece>` (30_encoding.md R113). -/
def pieceOf (cs : List Char) : Option (List Byte × List Char) :=
  match cs with
  | '"' :: rest => textPiece rest
  | 'h' :: 'e' :: 'x' :: ':' :: rest => some (hexPiece rest)
  | 'r' :: 'e' :: 'p' :: '(' :: rest => repPiece rest
  | _ => none

/-- `<bytes>`, pieces joined by `++`, to the end of the line; at most `fuel` pieces. -/
def bytesOperand : Nat → List Char → Option (List Byte)
  | 0, _ => none
  | fuel + 1, cs => do
    let (bs, rest) ← pieceOf (skipBlanks cs)
    if atLineEnd rest then some bs
    else
      let more ← expectChars ['+', '+'] (skipBlanks rest)
      let tail ← bytesOperand fuel more
      some (bs ++ tail)

/-- The variant's name. -/
def variantName (cs : List Char) : Option (Variant × List Char) :=
  match expectChars ['S', 'H', 'A', '2', '5', '6'] cs with
  | some rest => some (.sha256, rest)
  | none => (expectChars ['S', 'H', 'A', '5', '1', '2'] cs).map fun rest => (.sha512, rest)

/-- The operand of UPDATE; without one it is `UPDATE hex:` (30_encoding.md R114). -/
def updateOperand (cs : List Char) : Option (List Byte) :=
  if atLineEnd cs then some [] else bytesOperand (cs.length + 1) cs

/-- One line: nothing for a blank or comment line, else one command (30_encoding.md R113, R114). -/
def parseLine (line : List Char) : Option (List AsmCommand) :=
  if atLineEnd line then some []
  else
    let cs := skipBlanks line
    match expectChars ['I', 'N', 'I', 'T', ' '] cs with
    | some rest =>
      match variantName (skipBlanks rest) with
      | some (v, r) => if atLineEnd r then some [.init v] else none
      | none => none
    | none =>
      match expectChars ['U', 'P', 'D', 'A', 'T', 'E'] cs with
      | some rest => (updateOperand rest).map fun bs => [.update bs]
      | none =>
        match expectChars ['F', 'I', 'N', 'A', 'L', 'I', 'Z', 'E'] cs with
        | some rest => if atLineEnd rest then some [.finalize] else none
        | none => do
          let r1 ← expectChars ['H', 'A', 'S', 'H', ' '] cs
          let (v, r2) ← variantName (skipBlanks r1)
          let r3 ← expectChars [','] (skipBlanks r2)
          let bs ← bytesOperand (r3.length + 1) r3
          some [.hash v bs]

/-- The frames of a command list, one line a list of characters (30_encoding.md R113 to R115). -/
def assemble (lines : List (List Char)) : Option (List Frame) :=
  (lines.mapM parseLine).map fun cmds => (cmds.flatten.flatMap expandCommand).map encode

end Sys2Proof.Machine
end

