-- ==== Sys2Proof/Machine/Engines.lean ====
section
/-!
DEFINITION. Machine/Engines.lean: `NUM_ENGINES` engines side by side, `n` of them (00_scope.md R12). Each has its own
state; they share nothing but the constants, which are definitions here (20_memory.md R84, 60_exceptions.md R294). No
order between engines is given, so which one steps next is an input: a list of engine numbers. THE MODEL'S CHOICE
(notes/assumptions/14.md): what the spec leaves unspecified in two engines comes from the same constants of Config, each
engine counting its own draws, so at equal counts it is the same in both; the spec relates them in no way.
-/

namespace Sys2Proof.Machine

/-- One step of engine `i`; the others keep their states. -/
def stepEngine {n : Nat} (i : Fin n) (sys : Vector State n) : Host.Outcome (Vector State n) Fault Refusal :=
  match step sys[i] with
  | .next t => .next (sys.set i t)
  | .fault r => .fault r
  | .refused r => .refused r

/-- The engines step in the order a schedule gives. -/
def runEngines {n : Nat} : List (Fin n) → Vector State n → Host.Outcome (Vector State n) Fault Refusal
  | [], sys => .next sys
  | i :: rest, sys =>
    match stepEngine i sys with
    | .next sys' => runEngines rest sys'
    | .fault r => .fault r
    | .refused r => .refused r

end Sys2Proof.Machine
end

