-- ==== Sys2Proof/Machine/Message.lean ====
section
/-!
DEFINITION. Machine/Message.lean: the message-level view of a computation, the terms of the rules about whole messages:
its complete blocks, its padding and its digest (45_finalize.md R259, R261), what a context holds of a message while it is
being absorbed (10_state.md R39), and the blocks a run of the byte step hands to COMPRESS (44_init_update.md R224).
-/

namespace Sys2Proof.Machine

/-- The complete `B`-byte blocks of a byte sequence, in order; a block starts at a multiple of `B`
(00_scope.md R18, 20_memory.md R73). -/
def fullBlocks (b : Nat) (bytes : List Byte) : List (List Byte) :=
  (List.range (bytes.length / b)).map fun i => (bytes.drop (i * b)).take b

/-- The bytes after the last complete block. -/
def partialBlock (b : Nat) (bytes : List Byte) : List Byte :=
  bytes.drop (bytes.length / b * b)

/-- The fold of COMPRESS over blocks (10_state.md R39). -/
def foldBlocks (H : HashWords) (blocks : List (List Byte)) : HashWords :=
  blocks.foldl compressHash H

/-- The padded message: `message ++ [0x80] ++ Z zero bytes ++ BEbytes(8n, L)` (45_finalize.md R259). -/
def paddedMessage (v : Variant) (msg : List Byte) : List Byte :=
  msg ++ (0x80#8 :: List.replicate (zeroCount v msg.length) 0#8) ++ beBytes (8 * msg.length) v.lengthBytes

/-- The digest of a message: a function of the message bytes and the variant alone (45_finalize.md R255, R259, R261). -/
def digestOf (v : Variant) (msg : List Byte) : List Byte :=
  (foldBlocks (initialHash v) (fullBlocks v.blockBytes (paddedMessage v msg))).bytes

/-- What a context in phase ABSORBING holds after the bytes `msg` since INIT (10_state.md R39). -/
structure Holds (c : Context) (v : Variant) (msg : List Byte) : Prop where
  ctxValid  : c.ctxValid = true
  finalized : c.finalized = false
  variant   : c.variant = v
  bufLen    : c.bufLen = msg.length % v.blockBytes
  buf       : bufRead c c.bufLen = partialBlock v.blockBytes msg
  bitCount  : c.bitCount.toNat = 8 * msg.length % 2 ^ v.counterBits
  hash      : c.hash = foldBlocks (initialHash v) (fullBlocks v.blockBytes msg)

/-- The blocks handed to COMPRESS while `xs` are absorbed, in order (44_init_update.md R222, R224). -/
def blocksAbsorbed : List Byte → State → List (List Byte)
  | [], _ => []
  | x :: xs, s =>
    let s1 := pushByte x s
    (if s1.ctx.bufLen = s1.ctx.variant.blockBytes then [bufRead s1.ctx s1.ctx.variant.blockBytes] else [])
      ++ blocksAbsorbed xs (absorb x s)

/-- The bytes FINALIZE pads with: the mark, `Z` zeros and the length field (45_finalize.md R251 to R253). -/
def paddingBytes (c : Context) : List Byte :=
  0x80#8 :: (List.replicate (zeroCount c.variant c.bufLen) 0#8 ++ lengthField c)

/-- One accepted UPDATE per slice, in call order, as the hardware does them (20_memory.md R83, 44_init_update.md R226). -/
def absorbSlices (slices : List (List Byte)) (s : State) : State :=
  slices.foldl (fun s p => absorbSlice (BitVec.ofNat 64 p.length) p s) s

/-- The frames of one digest computation: INIT, one UPDATE per slice, FINALIZE (70_reset_and_hazards.md R324). -/
def digestFrames (v : Variant) (slices : List (List Byte)) : List Frame :=
  encode (.init v) :: (slices.map fun p => encode (.update (BitVec.ofNat 64 p.length) p)) ++ [encode .finalize]

end Sys2Proof.Machine
end

