-- ==== Sys2Proof/Safety.lean ====
section
/-!
DEFINITION. Safety.lean: what every state at a command boundary satisfies (10_state.md R36, R37, R38, R39, R41), and when two
states cannot be told apart by the host (10_state.md R35, R39, R44, R48; 92_eei_decisions.md D18, D25).
-/

namespace Sys2Proof.Machine

/-- The invariants at a command boundary. The clauses about `bufLen` and `bitCount` speak of a context that INIT has
opened: before that "no element but `ctx_valid` and `finalized` is meaningful" (10_state.md R39). -/
structure State.Inv (s : State) : Prop where
  /-- The phase `ctx_valid = 0, finalized = 1` does not occur (10_state.md R37). -/
  phase     : s.ctx.finalized = true → s.ctx.ctxValid = true
  /-- The padding machine is in `F_IDLE` (10_state.md R41). -/
  fstate    : s.fstate = .idle
  /-- `0 <= buf_len < B` (10_state.md R36). -/
  bufLen    : s.ctx.ctxValid = true → s.ctx.bufLen < s.ctx.variant.blockBytes
  /-- FINALIZED: `buf_len = 0` (10_state.md R39). -/
  empty     : s.ctx.finalized = true → s.ctx.bufLen = 0
  /-- `bit_count` has `C` bits; in SHA-256 mode bits 127..64 are 0 (10_state.md R38). -/
  bitCount  : s.ctx.ctxValid = true → s.ctx.bitCount.toNat < 2 ^ s.ctx.variant.counterBits

/-- Two contexts agree on everything some rule may still read: the flags always, and in phase ABSORBING also the hash words
with their width, the counter, the buffer length and the valid bytes of the buffer. -/
structure SameMeaning (c d : Context) : Prop where
  ctxValid  : c.ctxValid = d.ctxValid
  finalized : c.finalized = d.finalized
  hash      : phase c = .absorbing → c.hash = d.hash
  bufLen    : phase c = .absorbing → c.bufLen = d.bufLen
  bitCount  : phase c = .absorbing → c.bitCount = d.bitCount
  buf       : phase c = .absorbing → bufRead c c.bufLen = bufRead d d.bufLen

/-- Two engines the host cannot tell apart: same inputs to come, same responses so far, same meaning of the context;
datapath, stale buffer bytes and draws may differ. -/
structure State.LooksLike (s t : State) : Prop where
  ctx       : SameMeaning s.ctx t.ctx
  inputs    : s.inputs = t.inputs
  responses : s.responses = t.responses

/-- Two outcomes the host cannot tell apart. -/
def OutcomesAlike : Host.Outcome State Fault Refusal → Host.Outcome State Fault Refusal → Prop
  | .next s, .next t => s.LooksLike t
  | .refused q, .refused r => q = r
  | _, _ => False

end Sys2Proof.Machine
end

