-- ==== Sys2Proof/Certificates/Slice0/Obligations.lean ====
section
/-!
DEFINITION. Certificates/Slice0/Obligations.lean: the statements for the provers, in the order of the spec's files. Each
docstring says which rules of spec/ it formalises. A statement that rests on a choice of the model says so.
-/

open Sys2Proof Sys2Proof.Machine

/-! ## Byte order and word functions (20_memory.md, 40_functions.md, 41_constants.md) -/

/-- R70: `BE_w(s, i)` is the concatenation of `w/8` bytes from `s[i]`, `s[i]` most significant. -/
def Obligations.BigEndianWordIsConcatenation : Prop :=
  (∀ (s : List Byte) (i : Nat) (h : i + 4 ≤ s.length),
    beWord 32 s i = (s[i] ++ s[i + 1] ++ s[i + 2] ++ s[i + 3] : BitVec 32)) ∧
  (∀ (s : List Byte) (i : Nat) (h : i + 8 ≤ s.length),
    beWord 64 s i = (s[i] ++ s[i + 1] ++ s[i + 2] ++ s[i + 3] ++ s[i + 4] ++ s[i + 5] ++ s[i + 6] ++ s[i + 7] :
      BitVec 64))

/-- R71: byte `k` of `BEbytes(v, n)` is bits `8*(n-1-k)+7` to `8*(n-1-k)` of `v`, and parsing gives the value back. -/
def Obligations.BigEndianBytesAndBack : Prop :=
  (∀ (v n k : Nat) (h : k < (beBytes v n).length),
    ((beBytes v n)[k]).toNat = v / 2 ^ (8 * (n - 1 - k)) % 256) ∧
  (∀ v n : Nat, (beBytes v n).length = n) ∧
  (∀ v n : Nat, v < 2 ^ (8 * n) → beNat (beBytes v n) = v) ∧
  (∀ x : BitVec 32, beWord 32 (beBytes x.toNat 4) 0 = x) ∧
  (∀ x : BitVec 64, beWord 64 (beBytes x.toNat 8) 0 = x)

/-- R140, R141, R142: ADD of any number of words is their integer sum reduced modulo `2^w`; bit `i` of `ROTR(x, n)` is bit
`(i + n) mod w` of `x`; `SHR(x, n)` is `x div 2^n`. -/
def Obligations.AddRotateShiftWords : Prop :=
  (∀ (w : Nat) (x : BitVec w) (xs : List (BitVec w)),
    (xs.foldl (fun acc y => acc + y) x).toNat = (x.toNat + (xs.map BitVec.toNat).sum) % 2 ^ w) ∧
  ∀ (w : Nat) (x : BitVec w) (n : Nat), 0 < n → n < w →
    (∀ i : Nat, i < w → (rotr x n).getLsbD i = x.getLsbD ((i + n) % w)) ∧
    (shr x n).toNat = x.toNat / 2 ^ n

/-- R143, R144: each bit of Ch is the bit of `y` where `x` has a 1 and the bit of `z` where `x` has a 0; each bit of Maj is
the majority of the three. -/
def Obligations.ChooseAndMajorityBitwise : Prop :=
  ∀ (w : Nat) (x y z : BitVec w) (i : Nat), i < w →
    (ch x y z).getLsbD i = (if x.getLsbD i then y.getLsbD i else z.getLsbD i) ∧
    (maj x y z).getLsbD i
      = decide (2 ≤ (x.getLsbD i).toNat + (y.getLsbD i).toNat + (z.getLsbD i).toNat)

/-- R145 to R152: each bit of a Σ or σ function is the exclusive or of three bits of the operand, at the rule's amounts; the
shift brings a 0 in at the top. -/
def Obligations.SigmaFunctionsBitwise : Prop :=
  (∀ (x : BitVec 32) (i : Nat), i < 32 →
    (bigSigma0W32 x).getLsbD i
      = (x.getLsbD ((i + 2) % 32) ^^ x.getLsbD ((i + 13) % 32) ^^ x.getLsbD ((i + 22) % 32)) ∧
    (bigSigma1W32 x).getLsbD i
      = (x.getLsbD ((i + 6) % 32) ^^ x.getLsbD ((i + 11) % 32) ^^ x.getLsbD ((i + 25) % 32)) ∧
    (gamma0W32 x).getLsbD i
      = (x.getLsbD ((i + 7) % 32) ^^ x.getLsbD ((i + 18) % 32) ^^ (decide (i + 3 < 32) && x.getLsbD (i + 3))) ∧
    (gamma1W32 x).getLsbD i
      = (x.getLsbD ((i + 17) % 32) ^^ x.getLsbD ((i + 19) % 32) ^^ (decide (i + 10 < 32) && x.getLsbD (i + 10)))) ∧
  (∀ (x : BitVec 64) (i : Nat), i < 64 →
    (bigSigma0W64 x).getLsbD i
      = (x.getLsbD ((i + 28) % 64) ^^ x.getLsbD ((i + 34) % 64) ^^ x.getLsbD ((i + 39) % 64)) ∧
    (bigSigma1W64 x).getLsbD i
      = (x.getLsbD ((i + 14) % 64) ^^ x.getLsbD ((i + 18) % 64) ^^ x.getLsbD ((i + 41) % 64)) ∧
    (gamma0W64 x).getLsbD i
      = (x.getLsbD ((i + 1) % 64) ^^ x.getLsbD ((i + 8) % 64) ^^ (decide (i + 7 < 64) && x.getLsbD (i + 7))) ∧
    (gamma1W64 x).getLsbD i
      = (x.getLsbD ((i + 19) % 64) ^^ x.getLsbD ((i + 61) % 64) ^^ (decide (i + 6 < 64) && x.getLsbD (i + 6))))

/-- R175 (with R170 to R172): the tables hold the first 32 or 64 bits of the fractional parts of the square roots of the first
8 primes and of the cube roots of the first 64 or 80 primes. The first 80 primes are the primes up to 409; `r` is the
exact integer floor root. -/
def Obligations.ConstantsAreRootsOfPrimes : Prop :=
  ∃ ps : List Nat, ps.length = 80 ∧ ps.Pairwise (· < ·) ∧ (∀ q : Nat, q ∈ ps ↔ q.Prime ∧ q ≤ 409) ∧
    (∀ i : Nat, i < 8 → ∃ r : Nat,
      r ^ 2 ≤ ps.getD i 0 * 2 ^ 64 ∧ ps.getD i 0 * 2 ^ 64 < (r + 1) ^ 2 ∧
      (iv256.toList.getD i 0).toNat = r % 2 ^ 32) ∧
    (∀ i : Nat, i < 8 → ∃ r : Nat,
      r ^ 2 ≤ ps.getD i 0 * 2 ^ 128 ∧ ps.getD i 0 * 2 ^ 128 < (r + 1) ^ 2 ∧
      (iv512.toList.getD i 0).toNat = r % 2 ^ 64) ∧
    (k256.length = 64 ∧ ∀ t : Nat, t < 64 → ∃ r : Nat,
      r ^ 3 ≤ ps.getD t 0 * 2 ^ 96 ∧ ps.getD t 0 * 2 ^ 96 < (r + 1) ^ 3 ∧ (k256.getD t 0).toNat = r % 2 ^ 32) ∧
    (k512.length = 80 ∧ ∀ t : Nat, t < 80 → ∃ r : Nat,
      r ^ 3 ≤ ps.getD t 0 * 2 ^ 192 ∧ ps.getD t 0 * 2 ^ 192 < (r + 1) ^ 3 ∧ (k512.getD t 0).toNat = r % 2 ^ 64)

/-! ## The compressors (42_compress_sha256.md, 43_compress_sha512.md) -/

/-- R180, R181, R200, R201: the first 16 schedule words are the block's big-endian words, and every later one follows the
recurrence. -/
def Obligations.ScheduleFollowsRecurrence : Prop :=
  (∀ m : List Byte,
    (messageSchedule fns256 m).length = 64 ∧
    (∀ i : Nat, i < 16 → (messageSchedule fns256 m).getD i 0 = beWord 32 m (4 * i)) ∧
    (∀ t : Nat, 16 ≤ t → t < 64 →
      (messageSchedule fns256 m).getD t 0
        = gamma1W32 ((messageSchedule fns256 m).getD (t - 2) 0) + (messageSchedule fns256 m).getD (t - 7) 0
          + gamma0W32 ((messageSchedule fns256 m).getD (t - 15) 0) + (messageSchedule fns256 m).getD (t - 16) 0)) ∧
  (∀ m : List Byte,
    (messageSchedule fns512 m).length = 80 ∧
    (∀ i : Nat, i < 16 → (messageSchedule fns512 m).getD i 0 = beWord 64 m (8 * i)) ∧
    (∀ t : Nat, 16 ≤ t → t < 80 →
      (messageSchedule fns512 m).getD t 0
        = gamma1W64 ((messageSchedule fns512 m).getD (t - 2) 0) + (messageSchedule fns512 m).getD (t - 7) 0
          + gamma0W64 ((messageSchedule fns512 m).getD (t - 15) 0) + (messageSchedule fns512 m).getD (t - 16) 0))

/-- R182 to R188: SHA-256 compression is 64 rounds from the loaded hash words, each by the round's formulas, and the final
addition. `v t` are the working variables before round `t`. -/
def Obligations.CompressShaTwoFiveSixIsItsRounds : Prop :=
  ∀ (H : HashFile 32) (m : List Byte), ∃ v : Nat → WorkVars 32,
    v 0 = ⟨H[0], H[1], H[2], H[3], H[4], H[5], H[6], H[7]⟩ ∧
    (∀ t : Nat, t < 64 →
      let t1 := (v t).h + bigSigma1W32 (v t).e + ch (v t).e (v t).f (v t).g + k256.getD t 0
        + (messageSchedule fns256 m).getD t 0
      let t2 := bigSigma0W32 (v t).a + maj (v t).a (v t).b (v t).c
      v (t + 1) = ⟨t1 + t2, (v t).a, (v t).b, (v t).c, (v t).d + t1, (v t).e, (v t).f, (v t).g⟩) ∧
    compress256 H m = #v[H[0] + (v 64).a, H[1] + (v 64).b, H[2] + (v 64).c, H[3] + (v 64).d,
      H[4] + (v 64).e, H[5] + (v 64).f, H[6] + (v 64).g, H[7] + (v 64).h]

/-- R202 to R208: SHA-512 compression, the same with 80 rounds of 64-bit words. -/
def Obligations.CompressShaFiveOneTwoIsItsRounds : Prop :=
  ∀ (H : HashFile 64) (m : List Byte), ∃ v : Nat → WorkVars 64,
    v 0 = ⟨H[0], H[1], H[2], H[3], H[4], H[5], H[6], H[7]⟩ ∧
    (∀ t : Nat, t < 80 →
      let t1 := (v t).h + bigSigma1W64 (v t).e + ch (v t).e (v t).f (v t).g + k512.getD t 0
        + (messageSchedule fns512 m).getD t 0
      let t2 := bigSigma0W64 (v t).a + maj (v t).a (v t).b (v t).c
      v (t + 1) = ⟨t1 + t2, (v t).a, (v t).b, (v t).c, (v t).d + t1, (v t).e, (v t).f, (v t).g⟩) ∧
    compress512 H m = #v[H[0] + (v 80).a, H[1] + (v 80).b, H[2] + (v 80).c, H[3] + (v 80).d,
      H[4] + (v 80).e, H[5] + (v 80).f, H[6] + (v 80).g, H[7] + (v 80).h]

/-- R190, R210: the datapath that keeps only a 16-word circular window of the schedule returns exactly the function's
value, at both widths. -/
def Obligations.WindowedDatapathReturnsSameValue : Prop :=
  (∀ (H : HashFile 32) (m : List Byte), compressWindowed fns256 H m = compress256 H m) ∧
  (∀ (H : HashFile 64) (m : List Byte), compressWindowed fns512 H m = compress512 H m)

/-! ## Encoding (30_encoding.md) -/

/-- Frames written out from 30_encoding.md decode to the commands they stand for (the frames of R115). -/
def Obligations.ExampleFramesDecode : Prop :=
  decodeFrame [0x10#8] = .ok (.init .sha256) ∧
  decodeFrame [0x11#8] = .ok (.init .sha512) ∧
  decodeFrame [0x20#8, 0, 0, 0, 0, 0, 0, 0, 3, 0x61#8, 0x62#8, 0x63#8] = .ok (.update 3 [0x61#8, 0x62#8, 0x63#8]) ∧
  decodeFrame [0x20#8, 0, 0, 0, 0, 0, 0, 0, 0] = .ok (.update 0 []) ∧
  decodeFrame [0x30#8] = .ok .finalize

/-- Every command, with every operand, is read back from its frame (R103 to R106). -/
def Obligations.DecodeOfEncodeIsCommand : Prop :=
  ∀ i : Instr, i.WellFormed → decodeFrame (encode i) = .ok i

/-- A frame that decodes is the frame of a well-formed command and of no other: the decoder reads every bit. -/
def Obligations.EncodeOfDecodeIsFrame : Prop :=
  ∀ (f : Frame) (i : Instr), decodeFrame f = .ok i → i.WellFormed ∧ encode i = f

/-- R106: the operands of an UPDATE frame, and the framing invariant: a frame of another length is malformed, and the step
refuses it. -/
def Obligations.UpdateFrameOperands : Prop :=
  ∀ (f : Frame), f.head? = some 0x20#8 →
    (9 ≤ f.length → f.length = 9 + (beWord 64 f 1).toNat →
      decodeFrame f = .ok (.update (beWord 64 f 1) (f.drop 9)) ∧ (f.drop 9).length = (beWord 64 f 1).toNat) ∧
    ((f.length < 9 ∨ f.length ≠ 9 + (beWord 64 f 1).toNat) →
      ∀ (s : State) (rest : List HostInput), s.inputs = .command f :: rest → step s = .refused .malformedFrame)

/-- R110, R283: exactly four command bytes are legal, 252 are not; an illegal one, in every phase and with any rest of the
frame, is answered `0x03` and changes no state. -/
def Obligations.IllegalCommandBytes : Prop :=
  ((List.range 256).filter fun n => ¬ (n = 0x10 ∨ n = 0x11 ∨ n = 0x20 ∨ n = 0x30)).length = 252 ∧
  ∀ (cmd : Byte) (body : List Byte),
    (decodeFrame (cmd :: body) = .error .illegalCommand ↔
      ¬ (cmd = 0x10#8 ∨ cmd = 0x11#8 ∨ cmd = 0x20#8 ∨ cmd = 0x30#8)) ∧
    (¬ (cmd = 0x10#8 ∨ cmd = 0x11#8 ∨ cmd = 0x20#8 ∨ cmd = 0x30#8) →
      ∀ (s : State) (rest : List HostInput), s.inputs = .command (cmd :: body) :: rest →
        step s = .next { s with inputs := rest, responses := s.responses ++ [[0x03#8]] })

/-- R108, R109: the one response of a transaction: INIT and UPDATE return a status byte alone, FINALIZE also the `D` digest
bytes when the status is OK, an illegal command `0x03` alone; no other status byte occurs. -/
def Obligations.ResponseFrames : Prop :=
  ∀ (f : Frame) (s t : State), runFrame f s = .next t → ∃ r : Frame, t.responses = s.responses ++ [r] ∧
    match decodeFrame f with
    | .ok (.init _) => r = [0x00#8]
    | .ok (.update _ _) => r = [0x00#8] ∨ r = [0x01#8] ∨ r = [0x02#8]
    | .ok .finalize => r = [0x01#8] ∨ r = [0x02#8] ∨
        (r = 0x00#8 :: t.ctx.hash.bytes ∧ t.ctx.hash.bytes.length = s.ctx.variant.digestBytes)
    | .error _ => r = [0x03#8]

/-- R113, R114, R115: the command-list syntax and the pseudo-instructions give the frames the rules show. -/
def Obligations.AssemblerExamples : Prop :=
  assemble [['I', 'N', 'I', 'T', ' ', 'S', 'H', 'A', '2', '5', '6', ' ', ';', 'x'],
    ['U', 'P', 'D', 'A', 'T', 'E', ' ', '"', 'a', 'b', '"', ' ', '+', '+', ' ', 'h', 'e', 'x', ':', '6', '3'],
    ['U', 'P', 'D', 'A', 'T', 'E'], ['F', 'I', 'N', 'A', 'L', 'I', 'Z', 'E']]
    = some [[0x10#8], [0x20#8, 0, 0, 0, 0, 0, 0, 0, 3, 0x61#8, 0x62#8, 0x63#8], [0x20#8, 0, 0, 0, 0, 0, 0, 0, 0], [0x30#8]] ∧
  ∀ (v : Variant) (bytes : List Byte),
    expandCommand (.hash v bytes) = expandCommand (.init v) ++ expandCommand (.update bytes) ++ expandCommand .finalize

/-! ## The step (20_memory.md section 5, 60_exceptions.md, 70_reset_and_hazards.md) -/

/-- A step runs the decoded command: when the host's next frame decodes to `i`, the step is `exec i` at the state without
that frame; nothing else is done. -/
def Obligations.StepRunsDecodedCommand : Prop :=
  ∀ (s : State) (f : Frame) (i : Instr) (rest : List HostInput),
    s.inputs = .command f :: rest → decodeFrame f = .ok i → step s = exec i { s with inputs := rest }

/-- With nothing to take, the engine "holds its state unchanged indefinitely" (60_exceptions.md section 4). -/
def Obligations.StepWithoutInputHoldsState : Prop :=
  ∀ s : State, s.inputs = [] → step s = .next s

/-- R82: the state after a command sequence is the left fold of the command rules over the sequence, and the responses come
back in the same order, one for each command: after the first `k` commands the first `k` have been returned. -/
def Obligations.CommandsFoldInOrder : Prop :=
  ∀ (fs : List Frame) (s t : State) (rest : List HostInput),
    s.inputs = fs.map .command ++ rest →
    runFrames fs { s with inputs := rest } = .next t →
    runSteps fs.length s = .next t ∧ t.inputs = rest ∧
      ∃ rs : List Frame, t.responses = s.responses ++ rs ∧ rs.length = fs.length ∧
        ∀ k : Nat, k ≤ fs.length → ∃ u : State,
          runFrames (fs.take k) { s with inputs := rest } = .next u ∧ u.responses = s.responses ++ rs.take k

/-- When a step is refused, and that it never is otherwise: a frame of the wrong length (R106), or an UPDATE in phase
ABSORBING that would take the counter to `2^C` (R227). -/
def Obligations.StepRefusedExactlyWhen : Prop :=
  ∀ (s : State) (r : Refusal), step s = .refused r ↔
    (∃ (f : Frame) (rest : List HostInput), s.inputs = .command f :: rest ∧
      ((decodeFrame f = .error .malformedFrame ∧ r = .malformedFrame) ∨
       (∃ (len : BitVec 64) (p : List Byte), decodeFrame f = .ok (.update len p) ∧ phase s.ctx = .absorbing ∧
          2 ^ s.ctx.variant.counterBits ≤ s.ctx.bitCount.toNat + 8 * len.toNat ∧ r = .counterLimit)))

/-- R48: the values the spec gives for reset. -/
def Obligations.ResetStateIsIdle : Prop :=
  State.reset.ctx.ctxValid = false ∧ State.reset.ctx.finalized = false ∧ State.reset.fstate = .idle ∧
    phase State.reset.ctx = .idle

/-- R321 (with R320): a reset, between commands or in the middle of one, returns no response and leaves the reset state,
whatever the state before; every value the spec leaves unspecified there is left open here too. -/
def Obligations.ResetInputLeavesIdleEngine : Prop :=
  ∀ (s : State) (x : HostInput) (rest : List HostInput),
    s.inputs = x :: rest → (x = .reset ∨ ∃ f : Frame, x = .commandCutByReset f) →
    ∃ t : State, step s = .next t ∧ t.ctx.ctxValid = false ∧ t.ctx.finalized = false ∧ t.fstate = .idle ∧
      phase t.ctx = .idle ∧ t.responses = s.responses ∧ t.inputs = rest

/-- R84 (with R12, R294): in any order of steps of any number of engines, each engine ends where its own steps alone take
it. -/
def Obligations.EnginesAreIndependent : Prop :=
  ∀ (n : Nat) (schedule : List (Fin n)) (sys sys' : Vector State n),
    runEngines schedule sys = .next sys' →
    ∀ i : Fin n, runSteps (schedule.count i) sys[i] = .next sys'[i]

/-! ## Errors (60_exceptions.md) -/

/-- R282: UPDATE, whatever its operands, and FINALIZE with `ctx_valid = 0` return `0x02` and change nothing. -/
def Obligations.NotInitializedError : Prop :=
  ∀ (s : State), s.ctx.ctxValid = false →
    (∀ (len : BitVec 64) (p : List Byte),
      exec (.update len p) s = .next { s with responses := s.responses ++ [[0x02#8]] }) ∧
    exec .finalize s = .next { s with responses := s.responses ++ [[0x02#8]] }

/-- R281: in phase FINALIZED, UPDATE, whatever its operands, and FINALIZE return `0x01` and change nothing; only INIT, which
opens a new context, or a reset, which returns to phase IDLE, leaves the phase. -/
def Obligations.AlreadyFinalizedError : Prop :=
  ∀ (s : State), phase s.ctx = .finalized →
    (∀ (len : BitVec 64) (p : List Byte),
      exec (.update len p) s = .next { s with responses := s.responses ++ [[0x01#8]] }) ∧
    exec .finalize s = .next { s with responses := s.responses ++ [[0x01#8]] } ∧
    (∀ t : State, step s = .next t → phase t.ctx ≠ .finalized →
      ∃ (x : HostInput) (rest : List HostInput), s.inputs = x :: rest ∧
        ((∃ (f : Frame) (v : Variant), x = .command f ∧ decodeFrame f = .ok (.init v) ∧ phase t.ctx = .absorbing) ∨
          ((x = .reset ∨ ∃ f : Frame, x = .commandCutByReset f) ∧ phase t.ctx = .idle)))

/-- R286: a command reports exactly one status, that of the first check that applies: the command byte, INIT, `ctx_valid`,
`finalized`. -/
def Obligations.StatusPrecedence : Prop :=
  ∀ (cmd : Byte) (body : List Byte) (s t : State), runFrame (cmd :: body) s = .next t →
    ∃ r : Frame, t.responses = s.responses ++ [r] ∧ r.head? = some (
      if ¬ (cmd = 0x10#8 ∨ cmd = 0x11#8 ∨ cmd = 0x20#8 ∨ cmd = 0x30#8) then 0x03#8
      else if cmd = 0x10#8 ∨ cmd = 0x11#8 then 0x00#8
      else if s.ctx.ctxValid = false then 0x02#8
      else if s.ctx.finalized = true then 0x01#8
      else 0x00#8)

/-- R280: when the response of a transaction is an error, it is the status byte alone and no state element changes. -/
def Obligations.FailedCommandChangesNothing : Prop :=
  ∀ (f : Frame) (s t : State) (r : Frame),
    runFrame f s = .next t → t.responses = s.responses ++ [r] → r.head? ≠ some 0x00#8 →
    r.length = 1 ∧ t = { s with responses := s.responses ++ [r] }

/-! ## The context's registers over every step (10_state.md) -/

/-- R31: INIT writes `ctx_valid` 1, a reset writes it 0, and nothing else writes it. -/
def Obligations.CtxValidWriters : Prop :=
  ∀ s t : State, step s = .next t →
    t.ctx.ctxValid = match s.inputs with
      | [] => s.ctx.ctxValid
      | .command f :: _ =>
        match decodeFrame f with
        | .ok (.init _) => true
        | _ => s.ctx.ctxValid
      | _ :: _ => false

/-- R32: a successful FINALIZE writes `finalized` 1, INIT and a reset write it 0, and nothing else writes it. -/
def Obligations.FinalizedWriters : Prop :=
  ∀ s t : State, step s = .next t →
    t.ctx.finalized = match s.inputs with
      | [] => s.ctx.finalized
      | .command f :: _ =>
        match decodeFrame f with
        | .ok (.init _) => false
        | .ok .finalize => s.ctx.finalized || s.ctx.ctxValid
        | _ => s.ctx.finalized
      | _ :: _ => false

/-- R33 and R34, over every command: only INIT writes the variant; the hash words are the initial table of the new variant
after INIT; an accepted UPDATE replaces them by COMPRESS over the blocks its payload fills, an accepted FINALIZE over the
blocks its padding fills, each block of `B` bytes; and a command that fails leaves them. The premise on `buf_len` is an
invariant (`State.Inv`). -/
def Obligations.VariantAndHashWriters : Prop :=
  (∀ (xs : List Byte) (s : State), ∀ b ∈ blocksAbsorbed xs s, b.length = s.ctx.variant.blockBytes) ∧
  ∀ (i : Instr) (s t : State), exec i s = .next t →
    match i with
    | .init v => t.ctx.variant = v ∧ t.ctx.hash = initialHash v
    | .update _ p => t.ctx.variant = s.ctx.variant ∧
        t.ctx.hash = foldBlocks s.ctx.hash (if guardStatus s.ctx = none then blocksAbsorbed p s else [])
    | .finalize => t.ctx.variant = s.ctx.variant ∧
        ((guardStatus s.ctx = none → s.ctx.bufLen < s.ctx.variant.blockBytes) →
          t.ctx.hash = foldBlocks s.ctx.hash
            (if guardStatus s.ctx = none then blocksAbsorbed (paddingBytes s.ctx) s else []))

/-- R223: the counter over every command that completes: INIT clears it, an accepted UPDATE adds `8 * LEN` modulo `2^C`, a
failed UPDATE and FINALIZE leave it. -/
def Obligations.BitCounterRule : Prop :=
  ∀ (i : Instr) (s t : State), exec i s = .next t →
    match i with
    | .init _ => t.ctx.bitCount = 0
    | .update len _ =>
      if phase s.ctx = .absorbing then
        t.ctx.bitCount.toNat = (s.ctx.bitCount.toNat + 8 * len.toNat) % 2 ^ s.ctx.variant.counterBits
      else t.ctx.bitCount = s.ctx.bitCount
    | .finalize => t.ctx.bitCount = s.ctx.bitCount

/-- The invariants of a command boundary hold after reset (10_state.md sections 1 and 2; `State.Inv`). -/
def Obligations.InvariantAtReset : Prop := State.reset.Inv

/-- Every step keeps the invariants of a command boundary: the phase (0, 1) does not occur (R37), the padding machine is idle
(R41), `0 <= buf_len < B` (R36), `buf_len = 0` when finalized (R39), and the counter has `C` bits, so bits 127..64 are 0
in SHA-256 mode (R38). -/
def Obligations.StepKeepsInvariant : Prop :=
  ∀ s t : State, s.Inv → step s = .next t → t.Inv

/-- What the spec leaves unspecified never reaches the host (10_state.md R35, R39, R44, R48; 92_eei_decisions.md D18, D25): two
engines that agree on what is meaningful give outcomes the host cannot tell apart, whatever their stale buffer bytes,
datapath registers, draws and, outside phase ABSORBING, hash words, counter and buffer length are. -/
def Obligations.UnspecifiedValuesUnobservable : Prop :=
  ∀ s t : State, s.Inv → t.Inv → s.LooksLike t → OutcomesAlike (step s) (step t)

/-! ## INIT and UPDATE (44_init_update.md) -/

/-- R220: INIT completes in every state and opens the fresh context; the padding machine and the host's inputs stay. What the
old buffer bytes and the transient registers do is `InitFrame`. -/
def Obligations.InitOpensFreshContext : Prop :=
  ∀ (v : Variant) (s : State), ∃ t : State, exec (.init v) s = .next t ∧
    t.ctx.ctxValid = true ∧ t.ctx.finalized = false ∧ t.ctx.variant = v ∧
    t.ctx.hash = (match v with | .sha256 => .sha256 iv256 | .sha512 => .sha512 iv512) ∧
    t.ctx.bufLen = 0 ∧ t.ctx.bitCount = 0 ∧ phase t.ctx = .absorbing ∧
    t.responses = s.responses ++ [[0x00#8]] ∧ t.fstate = s.fstate ∧ t.inputs = s.inputs

/-- What INIT leaves alone among the values the spec leaves unspecified. THE MODEL'S CHOICE: R220 says that the old buffer
bytes stay in `buf` and calls them unspecified (R35), so that they are unchanged rests on notes/assumptions/4.md; that
the datapath registers, unspecified between commands (R40), and the model's own counter `draws` are unchanged rests on
notes/assumptions/2.md and 20.md. -/
def Obligations.InitFrame : Prop :=
  ∀ (v : Variant) (s t : State), exec (.init v) s = .next t →
    t.ctx.buf = s.ctx.buf ∧ t.datapath = s.datapath ∧ t.draws = s.draws

/-- UPDATE completes in phase ABSORBING, below the counter limit, for every payload and from every buffer length: the
response is OK, the counter grows by `8 * LEN`, and the flags, the variant and everything outside the context but the
datapath stay (44_init_update.md section 2). -/
def Obligations.UpdateCompletes : Prop :=
  ∀ (len : BitVec 64) (p : List Byte) (s : State), (Instr.update len p).WellFormed → phase s.ctx = .absorbing →
    s.ctx.bitCount.toNat + 8 * len.toNat < 2 ^ s.ctx.variant.counterBits →
    ∃ t : State, exec (.update len p) s = .next t ∧ t.responses = s.responses ++ [[0x00#8]] ∧
      t.ctx.bitCount.toNat = s.ctx.bitCount.toNat + 8 * len.toNat ∧
      t.ctx.ctxValid = true ∧ t.ctx.finalized = false ∧ t.ctx.variant = s.ctx.variant ∧
      t.fstate = s.fstate ∧ t.inputs = s.inputs

/-- R224: an accepted UPDATE with `r = buf_len` runs COMPRESS exactly `(r + LEN) div B` times, over the valid buffer bytes and
the payload cut into blocks in order, and leaves the rest in the buffer. -/
def Obligations.UpdateCompressesItsBlocks : Prop :=
  ∀ (len : BitVec 64) (p : List Byte) (s t : State), (Instr.update len p).WellFormed → phase s.ctx = .absorbing →
    s.ctx.bufLen < s.ctx.variant.blockBytes → exec (.update len p) s = .next t →
    let b := s.ctx.variant.blockBytes
    let stream := bufRead s.ctx s.ctx.bufLen ++ p
    blocksAbsorbed p s = fullBlocks b stream ∧
    (blocksAbsorbed p s).length = (s.ctx.bufLen + len.toNat) / b ∧
    t.ctx.hash = foldBlocks s.ctx.hash (fullBlocks b stream) ∧
    t.ctx.bufLen = (s.ctx.bufLen + len.toNat) % b ∧
    bufRead t.ctx t.ctx.bufLen = partialBlock b stream

/-- The frame of an accepted UPDATE: payload byte `j` is stored at `buf[(r + j) mod B]`, every other byte of `buf` is as
before, and when no block fills, the hash words and the datapath are too (44_init_update.md R222, R229). THE MODEL'S
CHOICE in three clauses: bytes of `buf` at and beyond `buf_len` are unspecified (R35), and that they keep what was last
written rests on notes/assumptions/4.md; that the datapath registers (R40) and the model's own counter `draws` change
only by a compression rests on notes/assumptions/2.md and 20.md. -/
def Obligations.UpdateFrame : Prop :=
  ∀ (len : BitVec 64) (p : List Byte) (s t : State), (Instr.update len p).WellFormed → phase s.ctx = .absorbing →
    s.ctx.bufLen < s.ctx.variant.blockBytes → exec (.update len p) s = .next t →
    (∀ i : Fin 128, (∀ j : Nat, j < p.length → (s.ctx.bufLen + j) % s.ctx.variant.blockBytes ≠ i.val) →
      t.ctx.buf[i] = s.ctx.buf[i]) ∧
    (s.ctx.bufLen + p.length < s.ctx.variant.blockBytes →
      (∀ (i : Fin 128) (j : Nat) (h : j < p.length), s.ctx.bufLen + j = i.val → t.ctx.buf[i] = p[j]) ∧
      t.ctx.hash = s.ctx.hash ∧ t.datapath = s.datapath ∧ t.draws = s.draws)

/-- R222: the byte step stores the byte at `buf_len`, after the valid bytes; when that fills the buffer it replaces H by the
compression of the whole buffer and empties the buffer, and else H stays. The flags, the variant and the counter stay in
both cases. Nothing is said here of bytes the spec leaves unspecified: that is `AbsorbByteFrame`. -/
def Obligations.AbsorbByteStep : Prop :=
  ∀ (x : Byte) (s : State), s.ctx.bufLen < s.ctx.variant.blockBytes →
    (s.ctx.bufLen + 1 < s.ctx.variant.blockBytes →
      (absorb x s).ctx.bufLen = s.ctx.bufLen + 1 ∧
      bufRead (absorb x s).ctx (absorb x s).ctx.bufLen = bufRead s.ctx s.ctx.bufLen ++ [x] ∧
      (absorb x s).ctx.hash = s.ctx.hash) ∧
    (s.ctx.bufLen + 1 = s.ctx.variant.blockBytes →
      (absorb x s).ctx.bufLen = 0 ∧
      (absorb x s).ctx.hash = compressHash s.ctx.hash (bufRead s.ctx s.ctx.bufLen ++ [x])) ∧
    (absorb x s).ctx.ctxValid = s.ctx.ctxValid ∧ (absorb x s).ctx.finalized = s.ctx.finalized ∧
    (absorb x s).ctx.variant = s.ctx.variant ∧ (absorb x s).ctx.bitCount = s.ctx.bitCount

/-- What the byte step does to all 128 bytes of `buf`: the byte at `buf_len` is written and every other one stays, also when
the step compresses. THE MODEL'S CHOICE for the bytes at and beyond the new `buf_len`, and so for all 128 after a
compression: the spec leaves them unspecified (R35), and that they keep what was last written rests on
notes/assumptions/4.md. -/
def Obligations.AbsorbByteFrame : Prop :=
  ∀ (x : Byte) (s : State), s.ctx.bufLen < s.ctx.variant.blockBytes →
    (absorb x s).ctx.buf = s.ctx.buf.setIfInBounds s.ctx.bufLen x

/-- R225: a zero-length UPDATE in phase ABSORBING returns OK and changes nothing, also at the last counter value; in the other
phases it fails like any UPDATE. The premise on the counter is an invariant (`State.Inv`). -/
def Obligations.EmptyUpdateChangesNothing : Prop :=
  ∀ s : State,
    (phase s.ctx = .absorbing → s.ctx.bitCount.toNat < 2 ^ s.ctx.variant.counterBits →
      exec (.update 0 []) s = .next { s with responses := s.responses ++ [[0x00#8]] }) ∧
    (phase s.ctx = .idle → exec (.update 0 []) s = .next { s with responses := s.responses ++ [[0x02#8]] }) ∧
    (phase s.ctx = .finalized → exec (.update 0 []) s = .next { s with responses := s.responses ++ [[0x01#8]] })

/-- R83: an accepted UPDATE absorbs its payload bytes in payload order, byte 0 first; and from any ABSORBING state, UPDATE(p)
then UPDATE(q) and UPDATE(p ++ q) are accepted together and leave the same context. -/
def Obligations.TwoUpdatesAreOneUpdate : Prop :=
  (∀ (len : BitVec 64) (p : List Byte) (s t : State), phase s.ctx = .absorbing → exec (.update len p) s = .next t →
    t.ctx = (addBits len.toNat (p.foldl (fun u x => absorb x u) s)).ctx) ∧
  ∀ (p q : List Byte) (s : State), phase s.ctx = .absorbing → p.length + q.length < 2 ^ 64 →
    ∀ c : Context,
      (∃ t u : State, exec (updateOf p) s = .next t ∧ exec (updateOf q) t = .next u ∧ u.ctx = c) ↔
      (∃ w : State, exec (updateOf (p ++ q)) s = .next w ∧ w.ctx = c)

/-- R226: for every partition into slices, empty ones included, and also when the counter wraps, the slices one by one leave
the whole context that their concatenation leaves, and FINALIZE then returns the same response. -/
def Obligations.ChunkingInvariance : Prop :=
  ∀ (slices : List (List Byte)) (s : State), s.ctx.bitCount.toNat < 2 ^ s.ctx.variant.counterBits →
    (∀ p ∈ slices, p.length < 2 ^ 64) →
    (absorbSlices slices s).ctx = (addBits slices.flatten.length (absorbAll slices.flatten s)).ctx ∧
    ∀ t u : State, exec .finalize (absorbSlices slices s) = .next t →
      exec .finalize (addBits slices.flatten.length (absorbAll slices.flatten s)) = .next u → t.responses = u.responses

/-- R227: where an UPDATE would take the counter to `2^C` or beyond, the model refuses it, and what the hardware does is the
sum modulo `2^C`. -/
def Obligations.CounterLimitRefused : Prop :=
  ∀ (len : BitVec 64) (p : List Byte) (s : State), phase s.ctx = .absorbing →
    2 ^ s.ctx.variant.counterBits ≤ s.ctx.bitCount.toNat + 8 * len.toNat →
    exec (.update len p) s = .refused .counterLimit ∧
    (absorbSlice len p s).ctx.bitCount.toNat
      = (s.ctx.bitCount.toNat + 8 * len.toNat) % 2 ^ s.ctx.variant.counterBits

/-- R39, ABSORBING: INIT leaves a context that holds the empty message, and an accepted UPDATE extends the message held by its
payload: `buf_len = n mod B`, the last bytes in the buffer, `bit_count = 8n mod 2^C`, and `H` the fold of COMPRESS over
the complete blocks. -/
def Obligations.ContextHoldsMessage : Prop :=
  (∀ (v : Variant) (s t : State), exec (.init v) s = .next t → Holds t.ctx v []) ∧
  (∀ (v : Variant) (msg p : List Byte) (len : BitVec 64) (s t : State),
    Holds s.ctx v msg → (Instr.update len p).WellFormed → exec (.update len p) s = .next t →
    Holds t.ctx v (msg ++ p))

/-! ## FINALIZE (45_finalize.md) -/

/-- R256: FINALIZE completes in phase ABSORBING; its end state; what it leaves alone; after it only INIT is accepted. The
premise on `buf_len` is an invariant (`State.Inv`). -/
def Obligations.FinalizeEndState : Prop :=
  ∀ s : State, phase s.ctx = .absorbing → s.ctx.bufLen < s.ctx.variant.blockBytes →
    ∃ t : State, exec .finalize s = .next t ∧
      phase t.ctx = .finalized ∧ t.ctx.bufLen = 0 ∧ t.ctx.bitCount = s.ctx.bitCount ∧
      t.ctx.variant = s.ctx.variant ∧ t.responses = s.responses ++ [0x00#8 :: t.ctx.hash.bytes] ∧
      t.fstate = s.fstate ∧ t.inputs = s.inputs ∧
      (∀ (len : BitVec 64) (p : List Byte),
        exec (.update len p) t = .next { t with responses := t.responses ++ [[0x01#8]] }) ∧
      exec .finalize t = .next { t with responses := t.responses ++ [[0x01#8]] } ∧
      (∀ v : Variant, ∃ u : State, exec (.init v) t = .next u ∧ phase u.ctx = .absorbing)

/-- R252: the padding loop appends exactly `Z = (B - L - (r + 1)) mod B` zero bytes, so FINALIZE's byte steps are the mark, `Z`
zeros and the length field; in one block when `r < B - L`, else with one extra compression. -/
def Obligations.PaddingLoopAppendsZeros : Prop :=
  ∀ s : State, s.ctx.bufLen < s.ctx.variant.blockBytes →
    let v := s.ctx.variant
    let z := (((v.blockBytes : Int) - v.lengthBytes - (s.ctx.bufLen + 1)) % v.blockBytes).toNat
    z < v.blockBytes ∧
    padZeros v.blockBytes (padMark s) = absorbAll (List.replicate z 0x00#8) (padMark s) ∧
    (padZeros v.blockBytes (padMark s)).ctx.bufLen = v.blockBytes - v.lengthBytes ∧
    (blocksAbsorbed (0x80#8 :: List.replicate z 0x00#8) s).length
      = (if s.ctx.bufLen < v.blockBytes - v.lengthBytes then 0 else 1)

/-- R253, R254, R258, R262: FINALIZE compresses one block when `r < B - L` and two otherwise; the last ends with the counter as
an `L`-byte big-endian integer; and H is replaced by the fold over them. -/
def Obligations.FinalizeCompressesOneOrTwoBlocks : Prop :=
  ∀ s t : State, phase s.ctx = .absorbing → s.ctx.bufLen < s.ctx.variant.blockBytes → exec .finalize s = .next t →
    let v := s.ctx.variant
    let blocks := fullBlocks v.blockBytes (bufRead s.ctx s.ctx.bufLen ++ paddingBytes s.ctx)
    blocks.length = (if s.ctx.bufLen < v.blockBytes - v.lengthBytes then 1 else 2) ∧
    blocks.flatten = bufRead s.ctx s.ctx.bufLen ++ paddingBytes s.ctx ∧
    (∃ last : List Byte, blocks.getLast? = some last ∧
      last.drop (v.blockBytes - v.lengthBytes) = beBytes s.ctx.bitCount.toNat v.lengthBytes) ∧
    t.ctx.hash = foldBlocks s.ctx.hash blocks

/-- R255: digest byte `k` is byte `k mod (w/8)`, 0 the most significant, of `H[k div (w/8)]`; `D` bytes, no truncation. -/
def Obligations.DigestSerialization : Prop :=
  (∀ H : HashFile 32, (HashWords.sha256 H).bytes.length = 32 ∧
    ∀ k : Nat, k < 32 → ((HashWords.sha256 H).bytes.getD k 0).toNat
      = (H.toList.getD (k / 4) 0).toNat / 2 ^ (8 * (3 - k % 4)) % 256) ∧
  (∀ H : HashFile 64, (HashWords.sha512 H).bytes.length = 64 ∧
    ∀ k : Nat, k < 64 → ((HashWords.sha512 H).bytes.getD k 0).toNat
      = (H.toList.getD (k / 8) 0).toNat / 2 ^ (8 * (7 - k % 8)) % 256)

/-- R257: the padding and finalization state machine, from any command boundary, is the command of R250. -/
def Obligations.PaddingMachineRefinesFinalize : Prop :=
  ∀ s : State, s.fstate = .idle → s.ctx.bufLen < s.ctx.variant.blockBytes → execFinalizeFsm s = execFinalize s

/-- The path of the state machine (45_finalize.md section 3): from `F_MARK` it comes back to `F_IDLE` after exactly
`fsmLength` arrows, visits `F_ZERO` `Z + 1` times, and `F_FLUSH` once when `r >= B - L` and never otherwise. -/
def Obligations.PaddingMachinePath : Prop :=
  ∀ s : State, s.ctx.bufLen < s.ctx.variant.blockBytes → s.fstate = .mark →
    let v := s.ctx.variant
    let n := fsmLength v s.ctx.bufLen
    (fsmRun n s).fstate = .idle ∧ (∀ k : Nat, k < n → (fsmRun k s).fstate ≠ .idle) ∧
    (List.range n).countP (fun k => (fsmRun k s).fstate = .zero) = zeroCount v s.ctx.bufLen + 1 ∧
    (List.range n).countP (fun k => (fsmRun k s).fstate = .flush)
      = (if s.ctx.bufLen < v.blockBytes - v.lengthBytes then 0 else 1)

/-- R259: FINALIZE of a context that holds a message of `n` bytes, `8n < 2^C`, returns the digest of the padded message:
the serialized fold of COMPRESS over `message ++ [0x80] ++ Z zeros ++ BEbytes(8n, L)`. -/
def Obligations.FinalizeReturnsDigestOfMessage : Prop :=
  ∀ (v : Variant) (msg : List Byte) (s : State), Holds s.ctx v msg → 8 * msg.length < 2 ^ v.counterBits →
    ∃ t : State, exec .finalize s = .next t ∧ t.responses = s.responses ++ [0x00#8 :: digestOf v msg]

/-- R261 with R324: from every state, INIT, any number of UPDATEs of any lengths and FINALIZE return the digest of the
concatenated message: a function of the message bytes and the variant, however they were split and whatever the engine
did before. -/
def Obligations.HostSequenceReturnsDigest : Prop :=
  ∀ (v : Variant) (slices : List (List Byte)) (s : State) (rest : List HostInput),
    (∀ p ∈ slices, p.length < 2 ^ 64) → 8 * slices.flatten.length < 2 ^ v.counterBits →
    s.inputs = (digestFrames v slices).map .command ++ rest →
    ∃ t : State, runSteps (slices.length + 2) s = .next t ∧ t.inputs = rest ∧
      t.responses = s.responses ++ List.replicate (slices.length + 1) [0x00#8] ++ [0x00#8 :: digestOf v slices.flatten]
end

