-- ==== Sys2Proof/Laws/Blocks.lean ====
section
/-!
SUPPORT. Laws/Blocks.lean: how the complete blocks and the partial block of a byte sequence grow (20_memory.md R73).
-/

namespace Sys2Proof.Machine

theorem fullBlocks_short {b : Nat} {bytes : List Byte} (h : bytes.length < b) : fullBlocks b bytes = [] := by
  simp [fullBlocks, Nat.div_eq_of_lt h]

theorem partialBlock_short {b : Nat} {bytes : List Byte} (h : bytes.length < b) : partialBlock b bytes = bytes := by
  simp [partialBlock, Nat.div_eq_of_lt h]

@[simp] theorem fullBlocks_length (b : Nat) (bytes : List Byte) : (fullBlocks b bytes).length = bytes.length / b := by
  simp [fullBlocks]

theorem partialBlock_length {b : Nat} (bytes : List Byte) : (partialBlock b bytes).length = bytes.length % b := by
  have := Nat.div_add_mod' bytes.length b
  simp only [partialBlock, List.length_drop]
  omega

theorem drop_past {blk bytes : List Byte} (k : Nat) : (blk ++ bytes).drop (blk.length + k) = bytes.drop k := by
  rw [← List.drop_drop, List.drop_left]

/-- A complete block in front. -/
theorem fullBlocks_cons {b : Nat} {blk : List Byte} (hb : 0 < b) (h : blk.length = b) (bytes : List Byte) :
    fullBlocks b (blk ++ bytes) = blk :: fullBlocks b bytes := by
  have hd : (blk ++ bytes).length / b = bytes.length / b + 1 := by
    rw [List.length_append, h, Nat.add_comm, Nat.add_div_right _ hb]
  simp only [fullBlocks, hd, List.range_succ_eq_map, List.map_cons, List.map_map]
  congr 1
  · simp [← h]
  · apply List.map_congr_left
    intro i _
    have : (i + 1) * b = blk.length + i * b := by rw [h, Nat.succ_mul, Nat.add_comm]
    simp [this]

theorem partialBlock_cons {b : Nat} {blk : List Byte} (hb : 0 < b) (h : blk.length = b) (bytes : List Byte) :
    partialBlock b (blk ++ bytes) = partialBlock b bytes := by
  have hd : (blk ++ bytes).length / b = bytes.length / b + 1 := by
    rw [List.length_append, h, Nat.add_comm, Nat.add_div_right _ hb]
  have : (bytes.length / b + 1) * b = blk.length + bytes.length / b * b := by rw [h, Nat.succ_mul, Nat.add_comm]
  simp only [partialBlock, hd, this, drop_past]

/-- What more bytes do to the blocks and to the rest: only the partial block matters. -/
theorem blocks_append {b : Nat} (hb : 0 < b) (bytes more : List Byte) :
    fullBlocks b (bytes ++ more) = fullBlocks b bytes ++ fullBlocks b (partialBlock b bytes ++ more) ∧
    partialBlock b (bytes ++ more) = partialBlock b (partialBlock b bytes ++ more) := by
  induction hn : bytes.length using Nat.strong_induction_on generalizing bytes with
  | _ n ih =>
    by_cases hs : bytes.length < b
    · simp [fullBlocks_short hs, partialBlock_short hs]
    · have hlen : (bytes.take b).length = b := by simp; omega
      have hdrop : (bytes.drop b).length < n := by simp; omega
      obtain ⟨h1, h2⟩ := ih _ hdrop (bytes.drop b) rfl
      have hsplit : bytes = bytes.take b ++ bytes.drop b := (List.take_append_drop b bytes).symm
      constructor
      · rw [hsplit, List.append_assoc, fullBlocks_cons hb hlen, fullBlocks_cons hb hlen, partialBlock_cons hb hlen, h1,
          List.cons_append]
      · rw [hsplit, List.append_assoc, partialBlock_cons hb hlen, partialBlock_cons hb hlen, h2]

theorem foldBlocks_append (H : HashWords) (xs ys : List (List Byte)) :
    foldBlocks H (xs ++ ys) = foldBlocks (foldBlocks H xs) ys := List.foldl_append

end Sys2Proof.Machine
end

