-- ==== Sys2Proof/Laws/Operands.lean ====
section
/-!
SUPPORT. Laws/Operands.lean: the facts about the byte-order primitives (20_memory.md R70, R71) that later proofs cite.
-/

namespace Sys2Proof

@[simp] theorem beBytes_length (v n : Nat) : (beBytes v n).length = n := by
  simp [beBytes]

theorem beNat_append (s t : List Byte) : beNat (s ++ t) = beNat s * 256 ^ t.length + beNat t := by
  induction t using List.reverseRecOn with
  | nil => simp [beNat]
  | append_singleton t x ih =>
    have step : ∀ u : List Byte, beNat (u ++ [x]) = beNat u * 256 + x.toNat := by intro u; simp [beNat]
    rw [← List.append_assoc, step, step, ih]
    simp [pow_succ]; ring

theorem beNat_lt (s : List Byte) : beNat s < 256 ^ s.length := by
  induction s using List.reverseRecOn with
  | nil => simp [beNat]
  | append_singleton s x ih =>
    have hx := x.isLt
    have : beNat [x] = x.toNat := by simp [beNat]
    rw [beNat_append, this]
    simp only [List.length_append, List.length_singleton, pow_succ, pow_zero, one_mul]
    omega

/-- The last byte of an encoding is the least significant one. -/
theorem beBytes_succ (v n : Nat) : beBytes v (n + 1) = beBytes (v / 256) n ++ [BitVec.ofNat 8 v] := by
  simp only [beBytes, List.range_succ, List.map_append, List.map_cons, List.map_nil]
  congr 1
  · apply List.map_congr_left
    intro k hk
    have hk : k < n := List.mem_range.mp hk
    rw [show (256 : Nat) = 2 ^ 8 from rfl, ← Nat.shiftRight_eq_div_pow, ← Nat.shiftRight_add]
    congr 2
    omega
  · simp

/-- Reading an encoding back gives the value, reduced to the field. -/
theorem beNat_beBytes (v n : Nat) : beNat (beBytes v n) = v % 256 ^ n := by
  induction n generalizing v with
  | zero => simp [beBytes, beNat, Nat.mod_one]
  | succ n ih =>
    rw [beBytes_succ, beNat_append, ih]
    have : beNat [BitVec.ofNat 8 v] = v % 256 := by simp [beNat]
    rw [this]
    simp only [List.length_singleton, pow_succ]
    rw [Nat.mul_comm (256 ^ n) 256, Nat.mod_mul]
    omega

/-- A sequence of bytes is the encoding of its own value. -/
theorem beBytes_beNat (s : List Byte) : beBytes (beNat s) s.length = s := by
  induction s using List.reverseRecOn with
  | nil => simp [beBytes]
  | append_singleton s x ih =>
    have hx := x.isLt
    have one : beNat [x] = x.toNat := by simp [beNat]
    rw [List.length_append, List.length_singleton, beBytes_succ, beNat_append, one]
    simp only [List.length_singleton, pow_one]
    have h1 : (beNat s * 256 + x.toNat) / 256 = beNat s := by omega
    rw [h1, ih]
    congr 2
    apply BitVec.eq_of_toNat_eq
    simp only [BitVec.toNat_ofNat]
    omega

@[simp] theorem wordBytes_length {w : Nat} (x : BitVec w) : (wordBytes x).length = w / 8 := by
  simp [wordBytes]

/-- The digest has `D` bytes (45_finalize.md R255). -/
theorem hashBytes_length (H : HashWords) : H.bytes.length = H.variant.digestBytes := by
  cases H <;> simp [HashWords.bytes, HashWords.variant, Variant.digestBytes, List.length_flatMap]

end Sys2Proof
end

