-- ==== Sys2Proof/Laws/State.lean ====
section
/-!
SUPPORT. Laws/State.lean: for each update of the state the machine makes, one lemma per field, true by `rfl` and tagged
`@[simp]`, so that no later proof unfolds a record update.
-/

namespace Sys2Proof.Machine

@[simp] theorem respond_ctx (st : Status) (d : List Byte) (s : State) :
    (respond st d s).ctx = s.ctx := rfl

@[simp] theorem respond_datapath (st : Status) (d : List Byte) (s : State) :
    (respond st d s).datapath = s.datapath := rfl

@[simp] theorem respond_fstate (st : Status) (d : List Byte) (s : State) :
    (respond st d s).fstate = s.fstate := rfl

@[simp] theorem respond_inputs (st : Status) (d : List Byte) (s : State) :
    (respond st d s).inputs = s.inputs := rfl

@[simp] theorem respond_responses (st : Status) (d : List Byte) (s : State) :
    (respond st d s).responses = s.responses ++ [responseFrame st d] := rfl

@[simp] theorem respond_draws (st : Status) (d : List Byte) (s : State) :
    (respond st d s).draws = s.draws := rfl

@[simp] theorem pushByte_ctxValid (x : Byte) (s : State) :
    (pushByte x s).ctx.ctxValid = s.ctx.ctxValid := rfl

@[simp] theorem pushByte_finalized (x : Byte) (s : State) :
    (pushByte x s).ctx.finalized = s.ctx.finalized := rfl

@[simp] theorem pushByte_hash (x : Byte) (s : State) :
    (pushByte x s).ctx.hash = s.ctx.hash := rfl

@[simp] theorem pushByte_variant (x : Byte) (s : State) :
    (pushByte x s).ctx.variant = s.ctx.variant := rfl

@[simp] theorem pushByte_buf (x : Byte) (s : State) :
    (pushByte x s).ctx.buf = s.ctx.buf.setIfInBounds s.ctx.bufLen x := rfl

@[simp] theorem pushByte_bufLen (x : Byte) (s : State) :
    (pushByte x s).ctx.bufLen = s.ctx.bufLen + 1 := rfl

@[simp] theorem pushByte_bitCount (x : Byte) (s : State) :
    (pushByte x s).ctx.bitCount = s.ctx.bitCount := rfl

@[simp] theorem pushByte_datapath (x : Byte) (s : State) :
    (pushByte x s).datapath = s.datapath := rfl

@[simp] theorem pushByte_fstate (x : Byte) (s : State) :
    (pushByte x s).fstate = s.fstate := rfl

@[simp] theorem pushByte_inputs (x : Byte) (s : State) :
    (pushByte x s).inputs = s.inputs := rfl

@[simp] theorem pushByte_responses (x : Byte) (s : State) :
    (pushByte x s).responses = s.responses := rfl

@[simp] theorem pushByte_draws (x : Byte) (s : State) :
    (pushByte x s).draws = s.draws := rfl

@[simp] theorem compressBuffer_ctxValid (s : State) :
    (compressBuffer s).ctx.ctxValid = s.ctx.ctxValid := rfl

@[simp] theorem compressBuffer_finalized (s : State) :
    (compressBuffer s).ctx.finalized = s.ctx.finalized := rfl

@[simp] theorem compressBuffer_hash (s : State) :
    (compressBuffer s).ctx.hash = compressHash s.ctx.hash (bufRead s.ctx s.ctx.variant.blockBytes) := rfl

@[simp] theorem compressBuffer_buf (s : State) :
    (compressBuffer s).ctx.buf = s.ctx.buf := rfl

@[simp] theorem compressBuffer_bufLen (s : State) :
    (compressBuffer s).ctx.bufLen = 0 := rfl

@[simp] theorem compressBuffer_bitCount (s : State) :
    (compressBuffer s).ctx.bitCount = s.ctx.bitCount := rfl

@[simp] theorem compressBuffer_datapath (s : State) :
    (compressBuffer s).datapath = deadDatapath s.ctx.variant s.draws := rfl

@[simp] theorem compressBuffer_fstate (s : State) :
    (compressBuffer s).fstate = s.fstate := rfl

@[simp] theorem compressBuffer_inputs (s : State) :
    (compressBuffer s).inputs = s.inputs := rfl

@[simp] theorem compressBuffer_responses (s : State) :
    (compressBuffer s).responses = s.responses := rfl

@[simp] theorem compressBuffer_draws (s : State) :
    (compressBuffer s).draws = s.draws + 1 := rfl

@[simp] theorem addBits_ctxValid (n : Nat) (s : State) :
    (addBits n s).ctx.ctxValid = s.ctx.ctxValid := rfl

@[simp] theorem addBits_finalized (n : Nat) (s : State) :
    (addBits n s).ctx.finalized = s.ctx.finalized := rfl

@[simp] theorem addBits_hash (n : Nat) (s : State) :
    (addBits n s).ctx.hash = s.ctx.hash := rfl

@[simp] theorem addBits_variant (n : Nat) (s : State) :
    (addBits n s).ctx.variant = s.ctx.variant := rfl

@[simp] theorem addBits_buf (n : Nat) (s : State) :
    (addBits n s).ctx.buf = s.ctx.buf := rfl

@[simp] theorem addBits_bufLen (n : Nat) (s : State) :
    (addBits n s).ctx.bufLen = s.ctx.bufLen := rfl

@[simp] theorem addBits_bitCount (n : Nat) (s : State) :
    (addBits n s).ctx.bitCount = BitVec.ofNat 128 ((s.ctx.bitCount.toNat + 8 * n) % 2 ^ s.ctx.variant.counterBits) := rfl

@[simp] theorem addBits_datapath (n : Nat) (s : State) :
    (addBits n s).datapath = s.datapath := rfl

@[simp] theorem addBits_fstate (n : Nat) (s : State) :
    (addBits n s).fstate = s.fstate := rfl

@[simp] theorem addBits_inputs (n : Nat) (s : State) :
    (addBits n s).inputs = s.inputs := rfl

@[simp] theorem addBits_responses (n : Nat) (s : State) :
    (addBits n s).responses = s.responses := rfl

@[simp] theorem addBits_draws (n : Nat) (s : State) :
    (addBits n s).draws = s.draws := rfl

@[simp] theorem emitDigest_ctxValid (s : State) :
    (emitDigest s).ctx.ctxValid = s.ctx.ctxValid := rfl

@[simp] theorem emitDigest_finalized (s : State) :
    (emitDigest s).ctx.finalized = true := rfl

@[simp] theorem emitDigest_hash (s : State) :
    (emitDigest s).ctx.hash = s.ctx.hash := rfl

@[simp] theorem emitDigest_variant (s : State) :
    (emitDigest s).ctx.variant = s.ctx.variant := rfl

@[simp] theorem emitDigest_buf (s : State) :
    (emitDigest s).ctx.buf = Config.freeBuf s.draws := rfl

@[simp] theorem emitDigest_bufLen (s : State) :
    (emitDigest s).ctx.bufLen = s.ctx.bufLen := rfl

@[simp] theorem emitDigest_bitCount (s : State) :
    (emitDigest s).ctx.bitCount = s.ctx.bitCount := rfl

@[simp] theorem emitDigest_datapath (s : State) :
    (emitDigest s).datapath = s.datapath := rfl

@[simp] theorem emitDigest_fstate (s : State) :
    (emitDigest s).fstate = s.fstate := rfl

@[simp] theorem emitDigest_inputs (s : State) :
    (emitDigest s).inputs = s.inputs := rfl

@[simp] theorem emitDigest_responses (s : State) :
    (emitDigest s).responses = s.responses ++ [responseFrame .ok s.ctx.hash.bytes] := rfl

@[simp] theorem emitDigest_draws (s : State) :
    (emitDigest s).draws = s.draws + 1 := rfl

@[simp] theorem resetEngine_ctx (s : State) :
    (resetEngine s).ctx = resetContext s.draws := rfl

@[simp] theorem resetEngine_datapath (s : State) :
    (resetEngine s).datapath = Config.freeDatapath s.draws := rfl

@[simp] theorem resetEngine_fstate (s : State) :
    (resetEngine s).fstate = .idle := rfl

@[simp] theorem resetEngine_inputs (s : State) :
    (resetEngine s).inputs = s.inputs := rfl

@[simp] theorem resetEngine_responses (s : State) :
    (resetEngine s).responses = s.responses := rfl

@[simp] theorem resetEngine_draws (s : State) :
    (resetEngine s).draws = s.draws + 1 := rfl

@[simp] theorem issueFrame_ctx (f : Frame) (s : State) :
    (issueFrame f s).ctx = s.ctx := rfl

@[simp] theorem issueFrame_datapath (f : Frame) (s : State) :
    (issueFrame f s).datapath = s.datapath := rfl

@[simp] theorem issueFrame_fstate (f : Frame) (s : State) :
    (issueFrame f s).fstate = s.fstate := rfl

@[simp] theorem issueFrame_inputs (f : Frame) (s : State) :
    (issueFrame f s).inputs = .command f :: s.inputs := rfl

@[simp] theorem issueFrame_responses (f : Frame) (s : State) :
    (issueFrame f s).responses = s.responses := rfl

@[simp] theorem issueFrame_draws (f : Frame) (s : State) :
    (issueFrame f s).draws = s.draws := rfl

@[simp] theorem freshContext_ctxValid (v : Variant) (c : Context) : (freshContext v c).ctxValid = true := rfl

@[simp] theorem freshContext_finalized (v : Variant) (c : Context) : (freshContext v c).finalized = false := rfl

@[simp] theorem freshContext_hash (v : Variant) (c : Context) : (freshContext v c).hash = initialHash v := rfl

@[simp] theorem freshContext_buf (v : Variant) (c : Context) : (freshContext v c).buf = c.buf := rfl

@[simp] theorem freshContext_bufLen (v : Variant) (c : Context) : (freshContext v c).bufLen = 0 := rfl

@[simp] theorem freshContext_bitCount (v : Variant) (c : Context) : (freshContext v c).bitCount = 0 := rfl

@[simp] theorem resetContext_ctxValid (n : Nat) : (resetContext n).ctxValid = false := rfl

@[simp] theorem resetContext_finalized (n : Nat) : (resetContext n).finalized = false := rfl

@[simp] theorem initialHash_variant (v : Variant) : (initialHash v).variant = v := by cases v <;> rfl

@[simp] theorem freshContext_variant (v : Variant) (c : Context) : (freshContext v c).variant = v :=
  initialHash_variant v

@[simp] theorem compressHash_variant (H : HashWords) (m : List Byte) : (compressHash H m).variant = H.variant := by
  cases H <;> rfl

@[simp] theorem compressBuffer_variant (s : State) : (compressBuffer s).ctx.variant = s.ctx.variant :=
  compressHash_variant ..

end Sys2Proof.Machine
end

