-- ==== Sys2Proof/Laws/Ops.lean ====
section
/-!
SUPPORT. Laws/Ops.lean: for each shared operation, what it can do, said once: the guard, the byte step (one inversion
lemma), a run of byte steps (what it leaves alone, and what it computes), the counter update.
-/

namespace Sys2Proof.Machine

theorem blockBytes_pos (v : Variant) : 0 < v.blockBytes := by cases v <;> decide

theorem blockBytes_le (v : Variant) : v.blockBytes ≤ 128 := by cases v <;> decide

/-- The guard passes exactly in phase ABSORBING (10_state.md R37). -/
theorem guardStatus_none {c : Context} :
    guardStatus c = none ↔ c.ctxValid = true ∧ c.finalized = false := by
  cases h1 : c.ctxValid <;> cases h2 : c.finalized <;> simp [guardStatus, h1, h2]

theorem phase_absorbing {c : Context} : phase c = .absorbing ↔ c.ctxValid = true ∧ c.finalized = false := by
  cases h1 : c.ctxValid <;> cases h2 : c.finalized <;> simp [phase, h1, h2]

/-- Everything one byte step can do (44_init_update.md R222). -/
theorem absorb_cases (x : Byte) (s : State) :
    (s.ctx.bufLen + 1 ≠ s.ctx.variant.blockBytes ∧ absorb x s = pushByte x s) ∨
    (s.ctx.bufLen + 1 = s.ctx.variant.blockBytes ∧ absorb x s = compressBuffer (pushByte x s)) := by
  by_cases h : s.ctx.bufLen + 1 = s.ctx.variant.blockBytes
  · right; exact ⟨h, by simp [absorb, h]⟩
  · left; exact ⟨h, by simp [absorb, h]⟩

section frame
variable (x : Byte) (xs : List Byte) (s : State)

@[simp] theorem absorb_ctxValid : (absorb x s).ctx.ctxValid = s.ctx.ctxValid := by
  obtain ⟨-, h⟩ | ⟨-, h⟩ := absorb_cases x s <;> simp [h]

@[simp] theorem absorb_finalized : (absorb x s).ctx.finalized = s.ctx.finalized := by
  obtain ⟨-, h⟩ | ⟨-, h⟩ := absorb_cases x s <;> simp [h]

@[simp] theorem absorb_variant : (absorb x s).ctx.variant = s.ctx.variant := by
  obtain ⟨-, h⟩ | ⟨-, h⟩ := absorb_cases x s <;> simp [h]

@[simp] theorem absorb_bitCount : (absorb x s).ctx.bitCount = s.ctx.bitCount := by
  obtain ⟨-, h⟩ | ⟨-, h⟩ := absorb_cases x s <;> simp [h]

@[simp] theorem absorb_fstate : (absorb x s).fstate = s.fstate := by
  obtain ⟨-, h⟩ | ⟨-, h⟩ := absorb_cases x s <;> simp [h]

@[simp] theorem absorb_inputs : (absorb x s).inputs = s.inputs := by
  obtain ⟨-, h⟩ | ⟨-, h⟩ := absorb_cases x s <;> simp [h]

@[simp] theorem absorb_responses : (absorb x s).responses = s.responses := by
  obtain ⟨-, h⟩ | ⟨-, h⟩ := absorb_cases x s <;> simp [h]

@[simp] theorem absorb_buf : (absorb x s).ctx.buf = s.ctx.buf.setIfInBounds s.ctx.bufLen x := by
  obtain ⟨-, h⟩ | ⟨-, h⟩ := absorb_cases x s <;> simp [h]

@[simp] theorem absorbAll_nil : absorbAll [] s = s := rfl

@[simp] theorem absorbAll_cons : absorbAll (x :: xs) s = absorbAll xs (absorb x s) := rfl

theorem absorbAll_append (ys : List Byte) : absorbAll (xs ++ ys) s = absorbAll ys (absorbAll xs s) :=
  List.foldl_append

@[simp] theorem absorbAll_ctxValid : (absorbAll xs s).ctx.ctxValid = s.ctx.ctxValid := by
  induction xs generalizing s <;> simp [*]

@[simp] theorem absorbAll_finalized : (absorbAll xs s).ctx.finalized = s.ctx.finalized := by
  induction xs generalizing s <;> simp [*]

@[simp] theorem absorbAll_variant : (absorbAll xs s).ctx.variant = s.ctx.variant := by
  induction xs generalizing s <;> simp [*]

@[simp] theorem absorbAll_bitCount : (absorbAll xs s).ctx.bitCount = s.ctx.bitCount := by
  induction xs generalizing s <;> simp [*]

@[simp] theorem absorbAll_fstate : (absorbAll xs s).fstate = s.fstate := by
  induction xs generalizing s <;> simp [*]

@[simp] theorem absorbAll_inputs : (absorbAll xs s).inputs = s.inputs := by
  induction xs generalizing s <;> simp [*]

@[simp] theorem absorbAll_responses : (absorbAll xs s).responses = s.responses := by
  induction xs generalizing s <;> simp [*]

end frame

/-- The valid bytes after a byte was pushed inside the buffer. -/
theorem bufRead_pushByte (x : Byte) {s : State} (h : s.ctx.bufLen < 128) :
    bufRead (pushByte x s).ctx (s.ctx.bufLen + 1) = bufRead s.ctx s.ctx.bufLen ++ [x] := by
  have hl : s.ctx.bufLen < s.ctx.buf.toList.length := by simpa using h
  simp only [bufRead, pushByte_buf, Vector.toList_setIfInBounds]
  rw [List.take_add_one, List.take_set_of_le (Nat.le_refl _)]
  simp [h]

theorem bufRead_length {c : Context} {n : Nat} (h : n ≤ 128) : (bufRead c n).length = n := by
  simp [bufRead, h]

/-- Everything a run of byte steps computes from a buffer that is not full: the bytes already in the buffer and the new
ones, cut into blocks (44_init_update.md R222, R224). -/
theorem absorbAll_spec (xs : List Byte) (s : State) (h : s.ctx.bufLen < s.ctx.variant.blockBytes) :
    (absorbAll xs s).ctx.hash
      = foldBlocks s.ctx.hash (fullBlocks s.ctx.variant.blockBytes (bufRead s.ctx s.ctx.bufLen ++ xs)) ∧
    (absorbAll xs s).ctx.bufLen = (s.ctx.bufLen + xs.length) % s.ctx.variant.blockBytes ∧
    bufRead (absorbAll xs s).ctx (absorbAll xs s).ctx.bufLen
      = partialBlock s.ctx.variant.blockBytes (bufRead s.ctx s.ctx.bufLen ++ xs) ∧
    blocksAbsorbed xs s = fullBlocks s.ctx.variant.blockBytes (bufRead s.ctx s.ctx.bufLen ++ xs) := by
  have hle := blockBytes_le s.ctx.variant
  have hpos := blockBytes_pos s.ctx.variant
  induction xs generalizing s with
  | nil =>
    have hl : (bufRead s.ctx s.ctx.bufLen).length < s.ctx.variant.blockBytes := by
      rw [bufRead_length (by omega)]; exact h
    simp [fullBlocks_short hl, partialBlock_short hl, foldBlocks, blocksAbsorbed, Nat.mod_eq_of_lt h]
  | cons x xs ih =>
    have hvalid := bufRead_pushByte x (s := s) (by omega)
    obtain ⟨hne, ha⟩ | ⟨he, ha⟩ := absorb_cases x s
    · have h' : (absorb x s).ctx.bufLen < (absorb x s).ctx.variant.blockBytes := by simp [ha]; omega
      obtain ⟨i1, i2, i3, i4⟩ := ih (absorb x s) h' (by simpa using hle) (by simpa using hpos)
      have hbuf : bufRead (absorb x s).ctx (absorb x s).ctx.bufLen = bufRead s.ctx s.ctx.bufLen ++ [x] := by
        rw [ha]; exact hvalid
      rw [hbuf, absorb_variant] at i1 i3 i4
      rw [absorb_variant] at i2
      refine ⟨?_, ?_, ?_, ?_⟩
      · simpa [ha] using i1
      · rw [absorbAll_cons, i2, ha, pushByte_bufLen, List.length_cons, Nat.add_right_comm, Nat.add_assoc]
      · simpa using i3
      · simp [blocksAbsorbed, hne, i4]
    · have h' : (absorb x s).ctx.bufLen < (absorb x s).ctx.variant.blockBytes := by simp [ha]; omega
      obtain ⟨i1, i2, i3, i4⟩ := ih (absorb x s) h' (by simpa using hle) (by simpa using hpos)
      have hbuf : bufRead (absorb x s).ctx (absorb x s).ctx.bufLen = [] := by simp [ha, bufRead]
      have hhash : (absorb x s).ctx.hash = compressHash s.ctx.hash (bufRead s.ctx s.ctx.bufLen ++ [x]) := by
        simp only [ha, compressBuffer_hash, pushByte_hash, pushByte_variant, ← he, hvalid]
      have hblk : (bufRead s.ctx s.ctx.bufLen ++ [x]).length = s.ctx.variant.blockBytes := by
        rw [List.length_append, bufRead_length (by omega)]; simpa using he
      have hsplit : bufRead s.ctx s.ctx.bufLen ++ x :: xs = (bufRead s.ctx s.ctx.bufLen ++ [x]) ++ xs := by simp
      rw [hbuf, absorb_variant] at i1 i3 i4
      rw [absorb_variant] at i2
      rw [hsplit, fullBlocks_cons hpos hblk, partialBlock_cons hpos hblk]
      refine ⟨?_, ?_, ?_, ?_⟩
      · simpa [hhash, foldBlocks] using i1
      · rw [absorbAll_cons, i2]
        have : s.ctx.bufLen + (x :: xs).length = xs.length + s.ctx.variant.blockBytes := by simp; omega
        rw [this, Nat.add_mod_right]; simp [ha]
      · simpa using i3
      · have hread : bufRead (pushByte x s).ctx s.ctx.variant.blockBytes = bufRead s.ctx s.ctx.bufLen ++ [x] := by
          rw [← he]; exact hvalid
        simp only [blocksAbsorbed, pushByte_bufLen, pushByte_variant, he, if_true, hread, i4]
        simp

end Sys2Proof.Machine
end

