-- ==== Sys2Proof/Laws/Finalize.lean ====
section
/-!
SUPPORT. Laws/Finalize.lean: the padding loop of FINALIZE, what it leaves alone and how many bytes it appends
(45_finalize.md R252).
-/

namespace Sys2Proof.Machine

/-- The padding loop is a run of byte steps. -/
theorem padZeros_absorbs (n : Nat) (s : State) : ∃ k, padZeros n s = absorbAll (List.replicate k 0x00#8) s := by
  induction n generalizing s with
  | zero => exact ⟨0, rfl⟩
  | succ n ih =>
    simp only [padZeros]
    split
    · exact ⟨0, rfl⟩
    · obtain ⟨k, hk⟩ := ih (absorb 0x00#8 s)
      exact ⟨k + 1, by rw [hk, List.replicate_succ, absorbAll_cons]⟩

/-- The whole padding is a run of byte steps, whatever the buffer length. -/
theorem padMessage_absorbs (s : State) : ∃ xs, padMessage s = absorbAll xs s := by
  obtain ⟨k, hk⟩ := padZeros_absorbs s.ctx.variant.blockBytes (padMark s)
  refine ⟨0x80#8 :: (List.replicate k 0x00#8 ++ lengthField (padZeros s.ctx.variant.blockBytes (padMark s)).ctx), ?_⟩
  rw [absorbAll_cons, absorbAll_append]
  rw [← padMark, ← hk]; rfl

theorem zeroCount_lt (v : Variant) (r : Nat) : zeroCount v r < v.blockBytes := by
  cases v <;> simp only [zeroCount, Variant.blockBytes, Variant.lengthBytes] <;> omega

/-- From a buffer that is not full the loop appends zeros until `buf_len = B - L`: `k` of them, `k` the distance modulo `B`. -/
theorem padZeros_spec (n : Nat) (s : State) (h : s.ctx.bufLen < s.ctx.variant.blockBytes) :
    let stop := s.ctx.variant.blockBytes - s.ctx.variant.lengthBytes
    let k := if s.ctx.bufLen ≤ stop then stop - s.ctx.bufLen else s.ctx.variant.blockBytes + stop - s.ctx.bufLen
    k ≤ n → padZeros n s = absorbAll (List.replicate k 0x00#8) s ∧ (padZeros n s).ctx.bufLen = stop := by
  have hstop : s.ctx.variant.blockBytes - s.ctx.variant.lengthBytes < s.ctx.variant.blockBytes := by
    cases s.ctx.variant <;> decide
  induction n generalizing s with
  | zero =>
    intro stop k hk
    have h0 : s.ctx.bufLen = stop := by simp only [k] at hk; split at hk <;> omega
    have k0 : k = 0 := Nat.le_zero.mp hk
    exact ⟨by rw [k0]; rfl, h0⟩
  | succ n ih =>
    intro stop k hk
    by_cases he : s.ctx.bufLen = stop
    · have k0 : k = 0 := by simp only [k, he]; simp
      have hp : padZeros (n + 1) s = s := by simp only [padZeros]; exact if_pos he
      rw [hp, k0]
      exact ⟨rfl, he⟩
    · have hp : padZeros (n + 1) s = padZeros n (absorb 0x00#8 s) := by simp only [padZeros]; exact if_neg he
      obtain ⟨hne, ha⟩ | ⟨hb, ha⟩ := absorb_cases 0x00#8 s
      · have hlen : (absorb 0x00#8 s).ctx.bufLen = s.ctx.bufLen + 1 := by simp [ha]
        have := ih (absorb 0x00#8 s) (by simp [hlen]; omega) (by simpa using hstop)
        simp only [absorb_variant, hlen] at this
        obtain ⟨i1, i2⟩ := this (by simp only [k] at hk; split at hk <;> split <;> omega)
        refine ⟨?_, by rw [hp, i2]⟩
        have hk1 : k = (if s.ctx.bufLen + 1 ≤ stop then stop - (s.ctx.bufLen + 1)
            else s.ctx.variant.blockBytes + stop - (s.ctx.bufLen + 1)) + 1 := by
          simp only [k]; split <;> split <;> omega
        rw [hp, i1, hk1, List.replicate_succ, absorbAll_cons]
      · have hlen : (absorb 0x00#8 s).ctx.bufLen = 0 := by simp [ha]
        have := ih (absorb 0x00#8 s) (by simp [hlen]; omega) (by simpa using hstop)
        simp only [absorb_variant, hlen] at this
        obtain ⟨i1, i2⟩ := this (by simp only [k] at hk; split at hk <;> split <;> omega)
        refine ⟨?_, by rw [hp, i2]⟩
        have hk1 : k = (if 0 ≤ stop then stop - 0 else s.ctx.variant.blockBytes + stop - 0) + 1 := by
          simp only [k]; split <;> split <;> omega
        rw [hp, i1, hk1, List.replicate_succ, absorbAll_cons]

section frame
variable (n : Nat) (s : State)

@[simp] theorem padMessage_ctxValid : (padMessage s).ctx.ctxValid = s.ctx.ctxValid := by
  obtain ⟨xs, h⟩ := padMessage_absorbs s; simp [h]

@[simp] theorem padMessage_finalized : (padMessage s).ctx.finalized = s.ctx.finalized := by
  obtain ⟨xs, h⟩ := padMessage_absorbs s; simp [h]

@[simp] theorem padMessage_variant : (padMessage s).ctx.variant = s.ctx.variant := by
  obtain ⟨xs, h⟩ := padMessage_absorbs s; simp [h]

@[simp] theorem padMessage_bitCount : (padMessage s).ctx.bitCount = s.ctx.bitCount := by
  obtain ⟨xs, h⟩ := padMessage_absorbs s; simp [h]

@[simp] theorem padMessage_fstate : (padMessage s).fstate = s.fstate := by
  obtain ⟨xs, h⟩ := padMessage_absorbs s; simp [h]

@[simp] theorem padMessage_inputs : (padMessage s).inputs = s.inputs := by
  obtain ⟨xs, h⟩ := padMessage_absorbs s; simp [h]

@[simp] theorem padMessage_responses : (padMessage s).responses = s.responses := by
  obtain ⟨xs, h⟩ := padMessage_absorbs s; simp [h]

end frame

end Sys2Proof.Machine
end

