-- ==== Sys2Proof/Laws/Step.lean ====
section
/-!
SUPPORT. Laws/Step.lean: everything a command and everything a step can do when it answers a next state, said once.
-/

namespace Sys2Proof.Machine

theorem guardStatus_some {c : Context} {e : Status} (h : guardStatus c = some e) :
    (e = .notInitialized ∧ c.ctxValid = false) ∨ (e = .alreadyFinalized ∧ c.ctxValid = true ∧ c.finalized = true) := by
  unfold guardStatus at h
  cases h1 : c.ctxValid <;> cases h2 : c.finalized <;> simp_all

/-- Every way a command answers a next state: an error response, INIT, an accepted UPDATE, an accepted FINALIZE. -/
theorem exec_next_cases {i : Instr} {s t : State} (h : exec i s = .next t) :
    (∃ e, guardStatus s.ctx = some e ∧ (∀ v, i ≠ .init v) ∧ t = respond e [] s) ∨
    (∃ v, i = .init v ∧ t = respond .ok [] { s with ctx := freshContext v s.ctx }) ∨
    (∃ len p, i = .update len p ∧ guardStatus s.ctx = none ∧
      s.ctx.bitCount.toNat + 8 * len.toNat < 2 ^ s.ctx.variant.counterBits ∧
      t = respond .ok [] (absorbSlice len p s)) ∨
    (i = .finalize ∧ guardStatus s.ctx = none ∧ t = emitDigest (padMessage s)) := by
  cases i with
  | init v => simp only [exec, execInit, Host.Outcome.next.injEq] at h; exact .inr (.inl ⟨v, rfl, h.symm⟩)
  | update len p =>
    simp only [exec, execUpdate] at h
    split at h
    · next e he => simp only [raise, Host.Outcome.next.injEq] at h; exact .inl ⟨e, he, by simp, h.symm⟩
    · next he =>
      split at h
      · cases h
      · next hl =>
        simp only [Host.Outcome.next.injEq] at h
        exact .inr (.inr (.inl ⟨len, p, rfl, he, by omega, h.symm⟩))
  | finalize =>
    simp only [exec, execFinalize] at h
    split at h
    · next e he => simp only [raise, Host.Outcome.next.injEq] at h; exact .inl ⟨e, he, by simp, h.symm⟩
    · next he => simp only [Host.Outcome.next.injEq] at h; exact .inr (.inr (.inr ⟨rfl, he, h.symm⟩))

/-- Every way a step answers a next state: no input, an illegal command byte, a command, a reset. -/
theorem step_next_cases {s t : State} (h : step s = .next t) :
    (s.inputs = [] ∧ t = s) ∨
    (∃ f rest, s.inputs = .command f :: rest ∧ decodeFrame f = .error .illegalCommand ∧
      t = respond .illegalCommand [] { s with inputs := rest }) ∨
    (∃ f rest i, s.inputs = .command f :: rest ∧ decodeFrame f = .ok i ∧ exec i { s with inputs := rest } = .next t) ∨
    (∃ x rest, s.inputs = x :: rest ∧ (x = .reset ∨ ∃ f, x = .commandCutByReset f) ∧
      t = resetEngine { s with inputs := rest }) := by
  unfold step at h
  rcases hs : s.inputs with _ | ⟨x, rest⟩
  · simp only [hs, Host.Outcome.next.injEq] at h; exact .inl ⟨rfl, h.symm⟩
  · rw [hs] at h
    rcases x with f | _ | f
    · simp only [runInput, runFrame] at h
      rcases hd : decodeFrame f with e | i
      · rw [hd] at h
        cases e with
        | illegalCommand =>
          simp only [raise, Host.Outcome.next.injEq] at h; exact .inr (.inl ⟨f, rest, rfl, hd, h.symm⟩)
        | malformedFrame => cases h
      · rw [hd] at h; exact .inr (.inr (.inl ⟨f, rest, i, rfl, hd, h⟩))
    · simp only [runInput, Host.Outcome.next.injEq] at h
      exact .inr (.inr (.inr ⟨_, rest, rfl, .inl rfl, h.symm⟩))
    · simp only [runInput, Host.Outcome.next.injEq] at h
      exact .inr (.inr (.inr ⟨_, rest, rfl, .inr ⟨f, rfl⟩, h.symm⟩))

theorem hostRun_succ (M : Host.Core) (k : Nat) (s : M.State) : M.run (k + 1) s =
    match M.step s with
    | .next t => M.run k t
    | .fault r => .fault r
    | .refused r => .refused r := rfl

/-- `runSteps` is the host's run of the machine. -/
theorem core_run (k : Nat) (s : State) : Host.Core.run core k s = runSteps k s := by
  induction k generalizing s with
  | zero => rfl
  | succ k ih =>
    refine (hostRun_succ core k s).trans ?_
    have hc : Host.Core.step core s = step s := rfl
    rw [hc, runSteps]
    cases step s with
    | next t => exact ih t
    | fault r => rfl
    | refused r => rfl

end Sys2Proof.Machine
end

