-- ==== Sys2Proof/Laws/Commands.lean ====
section
/-!
SUPPORT. Laws/Commands.lean: what the proofs about whole commands cite: the padding as one run of byte steps, an accepted
UPDATE, which buffer bytes a run of byte steps writes, and what the byte step does not look at (the host's inputs, the
counter, the padding machine's state, everything but the context).
-/

namespace Sys2Proof.Machine

/-! ## Which blocks and which bytes -/

/-- The blocks a byte step hands to COMPRESS: none, or the whole buffer once. -/
theorem blocksAbsorbed_cons (x : Byte) (xs : List Byte) (s : State) :
    (s.ctx.bufLen + 1 ≠ s.ctx.variant.blockBytes ∧ blocksAbsorbed (x :: xs) s = blocksAbsorbed xs (absorb x s)) ∨
    (s.ctx.bufLen + 1 = s.ctx.variant.blockBytes ∧ blocksAbsorbed (x :: xs) s
      = bufRead (pushByte x s).ctx s.ctx.variant.blockBytes :: blocksAbsorbed xs (absorb x s)) := by
  by_cases h : s.ctx.bufLen + 1 = s.ctx.variant.blockBytes
  · exact .inr ⟨h, by simp [blocksAbsorbed, h]⟩
  · exact .inl ⟨h, by simp [blocksAbsorbed, h]⟩

/-- A run of byte steps changes H only by COMPRESS over the blocks it fills, from any state (10_state.md R34). -/
theorem absorbAll_hash (xs : List Byte) (s : State) :
    (absorbAll xs s).ctx.hash = foldBlocks s.ctx.hash (blocksAbsorbed xs s) := by
  induction xs generalizing s with
  | nil => rfl
  | cons x xs ih =>
    rw [absorbAll_cons, ih]
    obtain ⟨h, ha⟩ | ⟨h, ha⟩ := absorb_cases x s <;>
      obtain ⟨h', hb⟩ | ⟨h', hb⟩ := blocksAbsorbed_cons x xs s
    · rw [hb, ha]; rfl
    · exact absurd h' h
    · exact absurd h h'
    · rw [hb, ha]; rfl

/-- The blocks are whole: `B` bytes each. -/
theorem blocksAbsorbed_block_length (xs : List Byte) (s : State) :
    ∀ b ∈ blocksAbsorbed xs s, b.length = s.ctx.variant.blockBytes := by
  induction xs generalizing s with
  | nil => simp [blocksAbsorbed]
  | cons x xs ih =>
    have ih := ih (absorb x s)
    rw [absorb_variant] at ih
    obtain ⟨-, hb⟩ | ⟨-, hb⟩ := blocksAbsorbed_cons x xs s <;> rw [hb]
    · exact ih
    · exact List.forall_mem_cons.mpr ⟨bufRead_length (blockBytes_le _), ih⟩

/-- A buffer byte that no position of the run falls on stays (44_init_update.md R229). -/
theorem absorbAll_buf_elsewhere (p : List Byte) (s : State) (hb : s.ctx.bufLen < s.ctx.variant.blockBytes) (i : Fin 128)
    (h : ∀ j < p.length, (s.ctx.bufLen + j) % s.ctx.variant.blockBytes ≠ i.val) :
    (absorbAll p s).ctx.buf[i] = s.ctx.buf[i] := by
  induction p generalizing s with
  | nil => rfl
  | cons x p ih =>
    have hb' := (absorbAll_spec [x] s hb).2.1
    simp only [absorbAll_cons, absorbAll_nil, List.length_singleton] at hb'
    have h0 := h 0 (by simp)
    simp only [Nat.add_zero, Nat.mod_eq_of_lt hb] at h0
    rw [absorbAll_cons, ih (absorb x s)]
    · rw [absorb_buf]; simp [h0]
    · rw [hb', absorb_variant]; exact Nat.mod_lt _ (blockBytes_pos _)
    · intro j hj
      rw [hb', absorb_variant]
      have := h (j + 1) (by simp; omega)
      rw [Nat.mod_add_mod]; convert this using 2; omega

/-- A run of byte steps that does not fill the buffer. -/
theorem absorbAll_without_block (p : List Byte) (s : State) (hb : s.ctx.bufLen + p.length < s.ctx.variant.blockBytes) :
    (∀ (i : Fin 128) (j : Nat) (h : j < p.length), s.ctx.bufLen + j = i.val → (absorbAll p s).ctx.buf[i] = p[j]) ∧
      (absorbAll p s).ctx.hash = s.ctx.hash ∧ (absorbAll p s).datapath = s.datapath ∧
      (absorbAll p s).draws = s.draws := by
  induction p generalizing s with
  | nil => simp
  | cons x p ih =>
    simp only [List.length_cons] at hb
    obtain ⟨-, ha⟩ | ⟨he, -⟩ := absorb_cases x s
    · have hl : (absorb x s).ctx.bufLen = s.ctx.bufLen + 1 := by simp [ha]
      obtain ⟨i1, i2, i3, i4⟩ := ih (absorb x s) (by rw [hl, absorb_variant]; omega)
      refine ⟨?_, by rw [absorbAll_cons, i2, ha]; rfl, by rw [absorbAll_cons, i3, ha]; rfl,
        by rw [absorbAll_cons, i4, ha]; rfl⟩
      intro i j hj hi
      cases j with
      | zero =>
        rw [absorbAll_cons, absorbAll_buf_elsewhere p _ (by rw [hl, absorb_variant]; omega) i]
        · have := i.isLt
          rw [absorb_buf]; simp [← hi]
        · intro j hj'; rw [hl, absorb_variant, Nat.mod_eq_of_lt (by omega)]; omega
      | succ j =>
        rw [absorbAll_cons, i1 i j (by simpa using hj) (by rw [hl]; omega)]; rfl
    · omega

/-! ## The padding -/

/-- The padding of FINALIZE from a buffer that is not full: one run of byte steps over the padding bytes, the loop's part
of it, and where the loop stops (45_finalize.md R251 to R253). -/
theorem padMessage_spec (s : State) (h : s.ctx.bufLen < s.ctx.variant.blockBytes) :
    padMessage s = absorbAll (paddingBytes s.ctx) s ∧
    padZeros s.ctx.variant.blockBytes (padMark s)
      = absorbAll (List.replicate (zeroCount s.ctx.variant s.ctx.bufLen) 0x00#8) (padMark s) ∧
    (padZeros s.ctx.variant.blockBytes (padMark s)).ctx.bufLen
      = s.ctx.variant.blockBytes - s.ctx.variant.lengthBytes := by
  have hb : (padMark s).ctx.bufLen = (s.ctx.bufLen + 1) % s.ctx.variant.blockBytes := (absorbAll_spec [0x80#8] s h).2.1
  have hv : (padMark s).ctx.variant = s.ctx.variant := absorb_variant ..
  have key := padZeros_spec s.ctx.variant.blockBytes (padMark s)
    (by rw [hb, hv]; exact Nat.mod_lt _ (blockBytes_pos _))
  simp only [hb, hv] at key
  have hz : (if (s.ctx.bufLen + 1) % s.ctx.variant.blockBytes ≤ s.ctx.variant.blockBytes - s.ctx.variant.lengthBytes
      then s.ctx.variant.blockBytes - s.ctx.variant.lengthBytes - (s.ctx.bufLen + 1) % s.ctx.variant.blockBytes
      else s.ctx.variant.blockBytes + (s.ctx.variant.blockBytes - s.ctx.variant.lengthBytes)
        - (s.ctx.bufLen + 1) % s.ctx.variant.blockBytes) = zeroCount s.ctx.variant s.ctx.bufLen := by
    generalize s.ctx.bufLen = r at *
    generalize s.ctx.variant = v at *
    by_cases hc : (r + 1) % v.blockBytes ≤ v.blockBytes - v.lengthBytes
    · rw [if_pos hc]; revert h hc
      cases v <;> simp only [zeroCount, Variant.blockBytes, Variant.lengthBytes] <;> omega
    · rw [if_neg hc]; revert h hc
      cases v <;> simp only [zeroCount, Variant.blockBytes, Variant.lengthBytes] <;> omega
  rw [hz] at key
  obtain ⟨k1, k2⟩ := key (Nat.le_of_lt (zeroCount_lt _ _))
  refine ⟨?_, k1, k2⟩
  have hl : lengthField (padZeros s.ctx.variant.blockBytes (padMark s)).ctx = lengthField s.ctx := by
    rw [k1]; simp [lengthField, padMark]
  show absorbAll (lengthField _) _ = _
  rw [hl, paddingBytes, absorbAll_cons, absorbAll_append, ← padMark, k1]

/-- Bytes that fill the buffer exactly: written in one go and compressed (45_finalize.md R257, `F_LEN` and `F_LAST`). -/
theorem absorbAll_to_full (xs : List Byte) (s : State) (hne : xs ≠ [])
    (h : s.ctx.bufLen + xs.length = s.ctx.variant.blockBytes) :
    absorbAll xs s = compressBuffer { s with ctx := { s.ctx with
      buf := bufWriteAt s.ctx.buf s.ctx.bufLen xs, bufLen := s.ctx.variant.blockBytes } } := by
  induction xs generalizing s with
  | nil => exact absurd rfl hne
  | cons x xs ih =>
    rw [absorbAll_cons]
    obtain ⟨h1, ha⟩ | ⟨h1, ha⟩ := absorb_cases x s
    · have hx : xs ≠ [] := by rintro rfl; simp at h; exact h1 h
      rw [ha, ih _ hx (by simp at h ⊢; omega)]; rfl
    · have hx : xs = [] := by apply List.length_eq_zero_iff.mp; simp at h; omega
      subst hx
      have : pushByte x s = { s with ctx := { s.ctx with
          buf := bufWriteAt s.ctx.buf s.ctx.bufLen [x], bufLen := s.ctx.variant.blockBytes } } := by
        simp only [pushByte, h1]; rfl
      rw [ha, absorbAll_nil, this]

/-! ## What the byte step does not look at -/

theorem absorb_withFstate (x : Byte) (s : State) (f : FState) :
    absorb x { s with fstate := f } = { absorb x s with fstate := f } := by
  unfold absorb
  by_cases h : (pushByte x s).ctx.bufLen = (pushByte x s).ctx.variant.blockBytes
  · exact (if_pos h).trans (by rw [if_pos h]; rfl)
  · exact (if_neg h).trans (by rw [if_neg h]; rfl)

theorem absorbAll_withFstate (xs : List Byte) (s : State) (f : FState) :
    absorbAll xs { s with fstate := f } = { absorbAll xs s with fstate := f } := by
  induction xs generalizing s with
  | nil => rfl
  | cons x xs ih => rw [absorbAll_cons, absorb_withFstate, ih]; rfl

theorem absorb_withInputs (x : Byte) (s : State) (a : List HostInput) :
    absorb x { s with inputs := a } = { absorb x s with inputs := a } := by
  unfold absorb
  by_cases h : (pushByte x s).ctx.bufLen = (pushByte x s).ctx.variant.blockBytes
  · exact (if_pos h).trans (by rw [if_pos h]; rfl)
  · exact (if_neg h).trans (by rw [if_neg h]; rfl)

theorem absorbAll_withInputs (xs : List Byte) (s : State) (a : List HostInput) :
    absorbAll xs { s with inputs := a } = { absorbAll xs s with inputs := a } := by
  induction xs generalizing s with
  | nil => rfl
  | cons x xs ih => rw [absorbAll_cons, absorb_withInputs, ih]; rfl

theorem absorb_addBits (x : Byte) (n : Nat) (s : State) : absorb x (addBits n s) = addBits n (absorb x s) := by
  obtain ⟨h1, h2⟩ | ⟨h1, h2⟩ := absorb_cases x s
  · obtain ⟨-, h4⟩ | ⟨h3, -⟩ := absorb_cases x (addBits n s)
    · rw [h2, h4]; rfl
    · exact absurd h3 h1
  · obtain ⟨h3, -⟩ | ⟨-, h4⟩ := absorb_cases x (addBits n s)
    · exact absurd h1 h3
    · rw [h2, h4]
      have := compressBuffer_variant (pushByte x s)
      simp only [addBits, this]; rfl

theorem absorbAll_addBits (xs : List Byte) (n : Nat) (s : State) :
    absorbAll xs (addBits n s) = addBits n (absorbAll xs s) := by
  induction xs generalizing s with
  | nil => rfl
  | cons x xs ih => rw [absorbAll_cons, absorb_addBits, ih]; rfl

/-- The context alone decides the context after a byte step. -/
theorem absorb_ctx_congr (x : Byte) {s t : State} (h : s.ctx = t.ctx) : (absorb x s).ctx = (absorb x t).ctx := by
  obtain ⟨h1, h2⟩ | ⟨h1, h2⟩ := absorb_cases x s
  · obtain ⟨-, h4⟩ | ⟨h3, -⟩ := absorb_cases x t
    · rw [h2, h4]; simp only [pushByte, h]
    · exact absurd (by rw [h]; exact h3) h1
  · obtain ⟨h3, -⟩ | ⟨-, h4⟩ := absorb_cases x t
    · exact absurd (by rw [← h]; exact h1) h3
    · rw [h2, h4]; simp only [pushByte, compressBuffer, h]

theorem absorbAll_ctx_congr (xs : List Byte) {s t : State} (h : s.ctx = t.ctx) :
    (absorbAll xs s).ctx = (absorbAll xs t).ctx := by
  induction xs generalizing s t with
  | nil => exact h
  | cons x xs ih => exact ih (absorb_ctx_congr x h)

/-! ## The counter and an accepted UPDATE -/

/-- The counter's sum modulo `2^C` fits its 128 bits (10_state.md R38). -/
theorem counter_fits (x : Nat) (v : Variant) :
    (BitVec.ofNat 128 (x % 2 ^ v.counterBits)).toNat = x % 2 ^ v.counterBits := by
  have := Nat.mod_lt x (show 0 < 2 ^ v.counterBits by positivity)
  rw [BitVec.toNat_ofNat]
  apply Nat.mod_eq_of_lt
  cases v <;> simp only [Variant.counterBits] at * <;> omega

theorem addBits_addBits (m n : Nat) (s : State) : addBits n (addBits m s) = addBits (m + n) s := by
  have : BitVec.ofNat 128 (((s.ctx.bitCount.toNat + 8 * m) % 2 ^ s.ctx.variant.counterBits + 8 * n)
      % 2 ^ s.ctx.variant.counterBits)
      = BitVec.ofNat 128 ((s.ctx.bitCount.toNat + 8 * (m + n)) % 2 ^ s.ctx.variant.counterBits) := by
    rw [Nat.mod_add_mod]; congr 2; omega
  simp only [addBits] at *
  rw [← this, counter_fits]; rfl

theorem addBits_zero {s : State} (h : s.ctx.bitCount.toNat < 2 ^ s.ctx.variant.counterBits) : addBits 0 s = s := by
  simp [addBits, Nat.mod_eq_of_lt h]

/-- UPDATE below the counter limit, in phase ABSORBING (44_init_update.md R221). -/
theorem exec_update_accepted {len : BitVec 64} {p : List Byte} {s : State} (hp : phase s.ctx = .absorbing)
    (hl : s.ctx.bitCount.toNat + 8 * len.toNat < 2 ^ s.ctx.variant.counterBits) :
    exec (.update len p) s = .next (respond .ok [] (absorbSlice len p s)) := by
  have hg := guardStatus_none.mpr (phase_absorbing.mp hp)
  simp only [exec, execUpdate, hg]
  rw [if_neg (by omega)]

/-- And back: an UPDATE that answers a next state there was below the limit. -/
theorem exec_update_next {len : BitVec 64} {p : List Byte} {s t : State} (hp : phase s.ctx = .absorbing)
    (h : exec (.update len p) s = .next t) :
    t = respond .ok [] (absorbSlice len p s) ∧
      s.ctx.bitCount.toNat + 8 * len.toNat < 2 ^ s.ctx.variant.counterBits := by
  have hg := guardStatus_none.mpr (phase_absorbing.mp hp)
  obtain ⟨e, hg', -, -⟩ | ⟨v, h', -⟩ | ⟨len', p', h', -, hl, rfl⟩ | ⟨h', -, -⟩ := exec_next_cases h
  · rw [hg] at hg'; cases hg'
  · cases h'
  · injection h' with h1 h2; subst h1; subst h2; exact ⟨rfl, hl⟩
  · cases h'

/-- FINALIZE in phase ABSORBING (45_finalize.md R250). -/
theorem exec_finalize_accepted {s : State} (hp : phase s.ctx = .absorbing) :
    exec .finalize s = .next (emitDigest (padMessage s)) := by
  have hg := guardStatus_none.mpr (phase_absorbing.mp hp)
  simp only [exec, execFinalize, hg]

/-! ## A command, the host's inputs and the responses -/

/-- A command takes no input and returns one response (30_encoding.md R100). -/
theorem exec_inputs_responses {i : Instr} {s t : State} (h : exec i s = .next t) :
    t.inputs = s.inputs ∧ ∃ r, t.responses = s.responses ++ [r] := by
  obtain ⟨e, -, -, rfl⟩ | ⟨v, -, rfl⟩ | ⟨len, p, -, -, -, rfl⟩ | ⟨-, -, rfl⟩ := exec_next_cases h
  · exact ⟨rfl, _, rfl⟩
  · exact ⟨rfl, _, rfl⟩
  · exact ⟨by simp [absorbSlice], _, by simp [absorbSlice]; rfl⟩
  · exact ⟨by simp, _, by rw [emitDigest_responses, padMessage_responses]⟩

theorem padZeros_withInputs (n : Nat) (s : State) (a : List HostInput) :
    padZeros n { s with inputs := a } = { padZeros n s with inputs := a } := by
  induction n generalizing s with
  | zero => rfl
  | succ n ih =>
    simp only [padZeros]
    show (if s.ctx.bufLen = _ then _ else _) = _
    split
    · rfl
    · rw [absorb_withInputs, ih]

theorem padMessage_withInputs (s : State) (a : List HostInput) :
    padMessage { s with inputs := a } = { padMessage s with inputs := a } := by
  show padLength (padZeros _ (padMark { s with inputs := a })) = _
  rw [padMark, absorb_withInputs, padZeros_withInputs, padLength]
  exact absorbAll_withInputs ..

/-- A command's outcome does not depend on the inputs still to come (20_memory.md R82). -/
theorem exec_withInputs {i : Instr} {s t : State} (a : List HostInput) (h : exec i s = .next t) :
    exec i { s with inputs := a } = .next { t with inputs := a } := by
  have hi : guardStatus ({ s with inputs := a } : State).ctx = guardStatus s.ctx := rfl
  cases i with
  | init v => simp only [exec, execInit] at *; injection h with h; subst h; rfl
  | update len p =>
    simp only [exec, execUpdate] at *
    rcases hg : guardStatus s.ctx with _ | e
    · rw [hg] at h
      simp only at *
      by_cases hl : s.ctx.bitCount.toNat + 8 * len.toNat ≥ 2 ^ s.ctx.variant.counterBits
      · rw [if_pos hl] at h; cases h
      · rw [if_neg hl] at *; injection h with h; subst h; rw [absorbSlice, absorbAll_withInputs]; rfl
    · rw [hg] at h; simp only [raise] at *; injection h with h; subst h; rfl
  | finalize =>
    simp only [exec, execFinalize] at *
    rcases hg : guardStatus s.ctx with _ | e
    · rw [hg] at h; injection h with h; subst h; rw [padMessage_withInputs]; rfl
    · rw [hg] at h; simp only [raise] at *; injection h with h; subst h; rfl

end Sys2Proof.Machine
end

