-- ==== Sys2Proof/Laws/Decode.lean ====
section
/-!
SUPPORT. Laws/Decode.lean: the decoder case by case of the command byte (30_encoding.md R102), and what UPDATE's length
operand reads as (R106).
-/

namespace Sys2Proof

/-- The opcode map as a table of command bytes. -/
theorem decodeOpcode_table : ∀ b : Byte, decodeOpcode b =
    if b = 0x10#8 then some (.init .sha256) else if b = 0x11#8 then some (.init .sha512)
    else if b = 0x20#8 then some .update else if b = 0x30#8 then some .finalize else none := by decide +kernel

/-- The decoder on a frame with a command byte. -/
theorem decodeFrame_cons (cmd : Byte) (body : List Byte) : decodeFrame (cmd :: body) =
    if cmd = 0x10#8 then (if body = [] then .ok (.init .sha256) else .error .malformedFrame)
    else if cmd = 0x11#8 then (if body = [] then .ok (.init .sha512) else .error .malformedFrame)
    else if cmd = 0x20#8 then decodeUpdate body
    else if cmd = 0x30#8 then (if body = [] then .ok .finalize else .error .malformedFrame)
    else .error .illegalCommand := by
  simp only [decodeFrame]
  rw [decodeOpcode_table]
  by_cases h1 : cmd = 0x10#8
  · simp only [h1, if_true]
  by_cases h2 : cmd = 0x11#8
  · simp only [h2, if_true]; rfl
  by_cases h3 : cmd = 0x20#8
  · simp only [h3, if_true]; rfl
  by_cases h4 : cmd = 0x30#8
  · simp only [h4, if_true]; rfl
  simp only [h1, h2, h3, h4, if_false]

/-- The length operand in front of a payload. -/
theorem beWord_lengthOperand (n : BitVec 64) (p : List Byte) : beWord 64 (beBytes n.toNat 8 ++ p) 0 = n := by
  have := n.isLt
  apply BitVec.eq_of_toNat_eq
  simp only [beWord, List.drop_zero, BitVec.toNat_ofNat]
  rw [List.take_append_of_le_length (by simp), List.take_of_length_le (by simp), beNat_beBytes]
  omega

end Sys2Proof
end

