-- ==== Sys2Proof/Laws/PerInstr.lean ====
section
/-!
SUPPORT. Laws/PerInstr.lean: one fact per command about its frame, the family `EncodeShape`: the frame of a well-formed command
begins with a legal command byte that selects it (30_encoding.md R102 to R105), and the command fixes the frame's length
(R106, R107).
-/

namespace Sys2Proof.Laws

/-- How many bytes a command's frame has (30_encoding.md R103 to R106). -/
def EncodeShape.frameLength : Instr → Nat
  | .init _ => 1
  | .update len _ => 9 + len.toNat
  | .finalize => 1

/-- Which command byte selects the command (30_encoding.md R102). -/
def EncodeShape.opcodeOf : Instr → Opcode
  | .init v => .init v
  | .update _ _ => .update
  | .finalize => .finalize

/-- The shape of the command's frame. -/
def EncodeShape.Statement (i : Instr) : Prop :=
  i.WellFormed → ∃ (cmd : Byte) (body : List Byte), encode i = cmd :: body ∧
    decodeOpcode cmd = some (EncodeShape.opcodeOf i) ∧ (encode i).length = EncodeShape.frameLength i

theorem EncodeShape.init (v : Variant) : EncodeShape.Statement (.init v) := fun _ => by
  cases v <;> exact ⟨_, [], rfl, by decide, rfl⟩

theorem EncodeShape.update (len : BitVec 64) (payload : List Byte) : EncodeShape.Statement (.update len payload) := fun h => by
  refine ⟨0x20#8, _, rfl, rfl, ?_⟩
  have h : payload.length = len.toNat := by simpa [Instr.WellFormed, Instr.wellFormed] using h
  simp only [encode, List.length_cons, List.length_append, beBytes_length, h, EncodeShape.frameLength]
  omega

theorem EncodeShape.finalize : EncodeShape.Statement .finalize := fun _ =>
  ⟨_, [], rfl, by decide, rfl⟩

end Sys2Proof.Laws
end

