-- ==== Sys2Proof/Tests/Slice0.lean ====
section
/-!
SUPPORT. Tests/Slice0.lean: the WellFormed smoke test, decoding tests with frames written out bit by bit from
30_encoding.md, one or two tests a command with values from 95_test_vectors.md (the vector's id stands in the
docstring), and for every obligation with hypotheses a witness that meets them.
-/

namespace Sys2Proof.Machine.Tests

/-! ## Helpers -/

/-- An engine in phase ABSORBING with `r` bytes `0x61` in the buffer, nothing compressed yet, and a given counter. -/
def absorbing (v : Variant) (r : Nat) (count : BitVec 128) : State :=
  { State.reset with ctx :=
    { ctxValid := true, finalized := false, hash := initialHash v, buf := Vector.replicate 128 0x61#8, bufLen := r,
      bitCount := count } }

/-- An engine in phase FINALIZED. -/
def finished (v : Variant) : State :=
  { State.reset with ctx :=
    { ctxValid := true, finalized := true, hash := initialHash v, buf := Vector.replicate 128 0, bufLen := 0,
      bitCount := 24 } }

/-- The same engine with one input to take. -/
def given (x : HostInput) (s : State) : State := { s with inputs := [x] }

/-- Does an outcome answer a next state with a property? -/
def nextHas (o : Host.Outcome State Fault Refusal) (p : State → Bool) : Bool :=
  match o with
  | .next t => p t
  | .fault _ => false
  | .refused _ => false

/-- Is an outcome this refusal? -/
def refusedBy (o : Host.Outcome State Fault Refusal) (r : Refusal) : Bool :=
  match o with
  | .next _ => false
  | .fault _ => false
  | .refused q => q = r

/-- `UPDATE "abc"` (R115). -/
def abcFrame : Frame := [0x20#8, 0, 0, 0, 0, 0, 0, 0, 3, 0x61#8, 0x62#8, 0x63#8]

/-! ## WellFormed: the check refuses an ill-formed term (R106) -/

theorem test_wellformed_refuses_short_payload : (Instr.update 3 [0x61#8, 0x62#8]).wellFormed = false := by decide
theorem test_wellformed_refuses_long_payload : (Instr.update 0 [0x61#8]).wellFormed = false := by decide
theorem test_wellformed_accepts : (Instr.update 1 [0x61#8]).wellFormed = true ∧ Instr.finalize.wellFormed = true := by decide

/-! ## Decoding: frames written bit by bit from R101 to R106 (`OP` in bits 7..4, `MOD` in bits 3..0) -/

theorem test_decode_init_sha256 : decodeFrame [(0b0001#4 ++ 0b0000#4 : BitVec 8)] = .ok (.init .sha256) := by decide
theorem test_decode_init_sha512 : decodeFrame [(0b0001#4 ++ 0b0001#4 : BitVec 8)] = .ok (.init .sha512) := by decide
theorem test_decode_update : decodeFrame ([(0b0010#4 ++ 0b0000#4 : BitVec 8)] ++ [0, 0, 0, 0, 0, 0, 0, 2] ++ [0x61#8, 0x62#8])
    = .ok (.update 2 [0x61#8, 0x62#8]) := by decide
theorem test_decode_finalize : decodeFrame [(0b0011#4 ++ 0b0000#4 : BitVec 8)] = .ok .finalize := by decide

/-- The length operand is big-endian: byte 7 of the frame is worth 256 (R106). -/
theorem test_decode_length_big_endian :
    decodeFrame ([0x20#8, 0, 0, 0, 0, 0, 0, 1, 0] ++ List.replicate 256 0x61#8)
      = .ok (.update 256 (List.replicate 256 0x61#8)) := by decide +kernel

/-- E-5 to E-9: the reserved neighbours of the legal command bytes (R110). -/
theorem test_decode_reserved :
    decodeFrame [0x12#8] = .error .illegalCommand ∧ decodeFrame [0x00#8] = .error .illegalCommand ∧
    decodeFrame [0xFF#8] = .error .illegalCommand ∧ decodeFrame [0x21#8, 7] = .error .illegalCommand ∧
    decodeFrame [0x31#8] = .error .illegalCommand := by decide

/-- U7: frames cut short or with bytes after their end. -/
theorem test_decode_malformed :
    decodeFrame [] = .error .malformedFrame ∧ decodeFrame [0x10#8, 0] = .error .malformedFrame ∧
    decodeFrame [0x20#8, 0, 0, 0, 0, 0, 0, 0] = .error .malformedFrame ∧
    decodeFrame [0x20#8, 0, 0, 0, 0, 0, 0, 0, 1] = .error .malformedFrame := by decide

/-- The opcode table's rows, by their `match` words. -/
theorem test_table_words : decodeTableWord 8 0x10 = some (.init .sha256) ∧ decodeTableWord 8 0x11 = some (.init .sha512) ∧
    decodeTableWord 8 0x20 = some (.update 0 []) ∧ decodeTableWord 8 0x30 = some .finalize ∧
    decodeTableWord 8 0x12 = none := by decide

/-- A table word that carries a length: `LEN = 1` in byte 8 of the frame. -/
theorem test_table_word_with_length : decodeTableWord 72 (0x20 + 1 <<< 64) = some (.update 1 [0]) := by decide

/-- A placed word is the very next thing a step runs. -/
theorem test_with_fetch_word :
    nextHas (step (State.reset.withFetchWord 8 0x11)) (fun t => t.ctx.ctxValid && t.ctx.hash = .sha512 iv512) = true ∧
    nextHas (step (State.reset.withFetchWord 8 0x20)) (fun t => t.responses = [[0x02#8]]) = true ∧
    nextHas (step (State.reset.withFetchWord 8 0x30)) (fun t => t.responses = [[0x02#8]]) = true := by decide

/-! ## Word functions, constants and the compressors -/

/-- FN-3, FN-5, FN-7, FN-10. -/
theorem test_word_functions : rotr 0x12345678#32 8 = 0x78123456#32 ∧ shr 0x80000000#32 31 = 1#32 ∧
    ch 0x510E527F#32 0x9B05688C#32 0x1F83D9AB#32 = 0x1F85C98C#32 ∧
    maj 0x6A09E667#32 0xBB67AE85#32 0x3C6EF372#32 = 0x3A6FE667#32 := by decide

/-- FN-12, FN-14, FN-18, FN-21. -/
theorem test_sigma_narrow : bigSigma0W32 0x6A09E667#32 = 0xCE20B47E#32 ∧ bigSigma1W32 0x510E527F#32 = 0x3587272B#32 ∧
    gamma0W32 0x61626380#32 = 0x940E90EF#32 ∧ gamma1W32 0x00000018#32 = 0x000F0000#32 := by decide

/-- FN-22, FN-24, FN-28, FN-31. -/
theorem test_sigma_wide : bigSigma0W64 0x6A09E667F3BCC908#64 = 0x08C4DB56AAC80C2A#64 ∧
    bigSigma1W64 0x510E527FADE682D1#64 = 0x9427E33BB5C9DBCA#64 ∧
    gamma0W64 0x6162638000000000#64 = 0x3012976480000000#64 ∧ gamma1W64 0x18#64 = 0x00030000000000C0#64 := by decide

/-- K-3, K-4, K-7, K-8. -/
theorem test_constants : k256.getD 31 0 = 0x14292967#32 ∧ k256.getD 63 0 = 0xC67178F2#32 ∧
    k512.getD 39 0 = 0x92722C851482353B#64 ∧ k512.getD 79 0 = 0x6C44198C4A475817#64 := by decide

/-- C256-3: eight zero words and 64 bytes `FF`. -/
theorem test_compress256 : (compress256 (Vector.replicate 8 0) (List.replicate 64 0xFF#8)).toList =
    [0x5081B30E#32, 0xFA9924A2#32, 0x8412D8AA#32, 0x28BB0C93#32, 0xDA147A5A#32, 0xD8E1F92B#32, 0x5AF1210D#32,
      0x57081603#32] := by decide +kernel

/-- C512-3: eight zero words and 128 bytes `FF`. -/
theorem test_compress512 : (compress512 (Vector.replicate 8 0) (List.replicate 128 0xFF#8)).toList =
    [0x219D4F41BD434E40#64, 0x512B43AAE687BAD0#64, 0x6D908B18199C964D#64, 0xEF624260330088D9#64, 0x1B0DCF1B0C4303B7#64,
      0x02AA1197995F197A#64, 0xE7BAE020DC82E7DD#64, 0xAAEFFD33C914A05E#64] := by decide +kernel

/-! ## One step of each command -/

/-- U-11: INIT in phase ABSORBING discards the computation and may change the variant. -/
theorem test_init_discards : nextHas (step (given (.command [0x11#8]) (absorbing .sha256 3 24))) (fun t =>
    t.ctx.hash = .sha512 iv512 && t.ctx.bufLen = 0 && t.ctx.bitCount = 0 && t.responses = [[0x00#8]]) = true := by decide

/-- E-10: INIT in phase FINALIZED. -/
theorem test_init_reopens : nextHas (step (given (.command [0x10#8]) (finished .sha512))) (fun t =>
    phase t.ctx = .absorbing && t.ctx.hash = .sha256 iv256) = true := by decide

/-- U-2: `UPDATE "abc"` after INIT. -/
theorem test_update_abc : nextHas (step (given (.command abcFrame) (absorbing .sha256 0 0))) (fun t =>
    t.ctx.bufLen = 3 && t.ctx.bitCount = 24 && t.ctx.hash = .sha256 iv256 &&
      bufRead t.ctx 3 = [0x61#8, 0x62#8, 0x63#8] && t.responses = [[0x00#8]]) = true := by decide +kernel

/-- U-7: the 64th byte `a` compresses at once. -/
theorem test_update_fills_block : nextHas (exec (.update 1 [0x61#8]) (absorbing .sha256 63 504)) (fun t =>
    t.ctx.bufLen = 0 && t.ctx.bitCount = 512 && t.ctx.hash = .sha256 #v[0xDF5BB81C#32, 0xE81E0626#32, 0xFB45A894#32,
      0x4FD40F31#32, 0xB25E6816#32, 0xD6D499C1#32, 0xAB904929#32, 0x00635E66#32]) = true := by decide +kernel

/-- KAT-4: FINALIZE of 55 bytes `a`, one block. -/
theorem test_finalize_one_block : nextHas (exec .finalize (absorbing .sha256 55 440)) (fun t =>
    t.ctx.bitCount = 440 && t.ctx.bufLen = 0 && t.ctx.finalized &&
    t.responses = [[0x00#8, 0x9f#8, 0x43#8, 0x90#8, 0xf8#8, 0xd3#8, 0x0c#8, 0x2d#8, 0xd9#8, 0x2e#8, 0xc9#8, 0xf0#8, 0x95#8,
      0xb6#8, 0x5e#8, 0x2b#8, 0x9a#8, 0xe9#8, 0xb0#8, 0xa9#8, 0x25#8, 0xa5#8, 0x25#8, 0x8e#8, 0x24#8, 0x1c#8, 0x9f#8,
      0x1e#8, 0x91#8, 0x0f#8, 0x73#8, 0x43#8, 0x18#8]]) = true := by decide +kernel

/-- KAT-24: FINALIZE of 127 bytes `a` in SHA-512; the mark fills the first of two blocks. -/
theorem test_finalize_two_blocks : nextHas (exec .finalize (absorbing .sha512 127 1016)) (fun t =>
    t.responses = [[0x00#8, 0x82#8, 0x86#8, 0x13#8, 0x96#8, 0x8b#8, 0x50#8, 0x1d#8, 0xc0#8, 0x0a#8, 0x97#8, 0xe0#8, 0x8c#8,
      0x73#8, 0xb1#8, 0x18#8, 0xaa#8, 0x88#8, 0x76#8, 0xc2#8, 0x6b#8, 0x8a#8, 0xac#8, 0x93#8, 0xdf#8, 0x12#8, 0x85#8,
      0x02#8, 0xab#8, 0x36#8, 0x0f#8, 0x91#8, 0xba#8, 0xb5#8, 0x0a#8, 0x51#8, 0xe0#8, 0x88#8, 0x76#8, 0x9a#8, 0x5c#8,
      0x1e#8, 0xff#8, 0x47#8, 0x82#8, 0xac#8, 0xe1#8, 0x47#8, 0xdc#8, 0xe3#8, 0x64#8, 0x25#8, 0x54#8, 0x19#8, 0x98#8,
      0x76#8, 0x37#8, 0x42#8, 0x91#8, 0xf5#8, 0xd9#8, 0x21#8, 0x62#8, 0x95#8, 0x02#8]]) = true := by decide +kernel

/-- E-8: the illegal command byte wins over the guards (R286). -/
theorem test_precedence : nextHas (step (given (.command [0x21#8, 9]) (finished .sha256))) (fun t =>
    t = { finished .sha256 with responses := [[0x03#8]] }) = true := by decide +kernel

/-! ## Witnesses: for each obligation with hypotheses, a state and operands that meet them -/

theorem witness_BigEndianWordIsConcatenation :
    0 + 4 ≤ [0x61#8, 0x62#8, 0x63#8, 0x80#8].length ∧ 1 + 8 ≤ (List.replicate 9 0x01#8).length ∧
    beWord 32 [0x61#8, 0x62#8, 0x63#8, 0x80#8] 0 = 0x61626380#32 := by decide

theorem witness_BigEndianBytesAndBack : 7 < (beBytes 0x18 8).length ∧ 0x18 < 2 ^ (8 * 8) ∧ 255 < 2 ^ (8 * 1) ∧
    beBytes 0x18 8 = [0, 0, 0, 0, 0, 0, 0, 0x18#8] := by decide

/-- `AddRotateShiftWords`, `ChooseAndMajorityBitwise` and `SigmaFunctionsBitwise`: amounts and bits at both ends. -/
theorem witness_word_functions : 0 < 1 ∧ 1 < 32 ∧ 0 < 63 ∧ 63 < 64 ∧ 31 < 32 ∧
    (rotr 1#64 63).getLsbD 1 = (1#64).getLsbD ((1 + 63) % 64) := by decide

/-- `ConstantsAreRootsOfPrimes`: 409 is a prime in range, and the tables' last indexes are in range. -/
theorem witness_ConstantsAreRootsOfPrimes : Nat.Prime 409 ∧ 409 ≤ 409 ∧ 7 < 8 ∧ 63 < 64 ∧ 79 < 80 := by norm_num

theorem witness_DecodeOfEncodeIsCommand : (Instr.init .sha512).WellFormed ∧ (Instr.update 0 []).WellFormed ∧
    (Instr.update 2 [1, 2]).WellFormed ∧ Instr.finalize.WellFormed := by decide

theorem witness_EncodeOfDecodeIsFrame : decodeFrame [0x11#8] = .ok (.init .sha512) ∧
    decodeFrame abcFrame = .ok (.update 3 [0x61#8, 0x62#8, 0x63#8]) := by decide

/-- Each clause of `UpdateFrameOperands`: the shortest good frame, one byte too few, one too many. -/
theorem witness_UpdateFrameOperands :
    ([0x20#8, 0, 0, 0, 0, 0, 0, 0, 0] : Frame).length = 9 + (beWord 64 [0x20#8, 0, 0, 0, 0, 0, 0, 0, 0] 1).toNat ∧
    ([0x20#8, 0, 0, 0, 0, 0, 0, 0] : Frame).length < 9 ∧
    ([0x20#8, 0, 0, 0, 0, 0, 0, 0, 0, 7] : Frame).length ≠ 9 + (beWord 64 [0x20#8, 0, 0, 0, 0, 0, 0, 0, 0, 7] 1).toNat ∧
    refusedBy (step (given (.command [0x20#8, 0, 0, 0, 0, 0, 0, 0, 0, 7]) State.reset)) .malformedFrame = true := by decide

theorem witness_IllegalCommandBytes : ¬ (0x12#8 = 0x10#8 ∨ 0x12#8 = 0x11#8 ∨ 0x12#8 = 0x20#8 ∨ 0x12#8 = 0x30#8) ∧
    (given (.command (0x12#8 :: [5])) State.reset).inputs = .command (0x12#8 :: [5]) :: [] := by decide

/-- `ResponseFrames`, `StatusPrecedence` and `FailedCommandChangesNothing`: an OK and each error. -/
theorem witness_ResponseFrames :
    nextHas (runFrame [0x10#8] State.reset) (fun t => t.responses = [] ++ [[0x00#8]]) = true ∧
    nextHas (runFrame [0x30#8] State.reset) (fun t => t.responses = [] ++ [[0x02#8]]) = true ∧
    nextHas (runFrame abcFrame (finished .sha256)) (fun t => t.responses = [] ++ [[0x01#8]]) = true ∧
    nextHas (runFrame [0x40#8] State.reset) (fun t => t.responses = [] ++ [[0x03#8]]) = true ∧
    ([0x03#8] : Frame).head? ≠ some 0x00#8 := by decide

theorem witness_ResponseFrames_digest : ∃ t, runFrame [0x30#8] (absorbing .sha256 3 24) = .next t := ⟨_, rfl⟩

theorem witness_StepRunsDecodedCommand :
    (given (.command abcFrame) (absorbing .sha512 127 0)).inputs = .command abcFrame :: [] ∧
    decodeFrame abcFrame = .ok (.update 3 [0x61#8, 0x62#8, 0x63#8]) := by decide

theorem witness_StepWithoutInputHoldsState : State.reset.inputs = [] := by decide

theorem witness_CommandsFoldInOrder :
    (State.mk State.reset.ctx State.reset.datapath .idle ([.command [0x10#8], .command abcFrame, .reset]) [] 0).inputs
      = [[0x10#8], abcFrame].map HostInput.command ++ [.reset] ∧
    ∃ t, runFrames [[0x10#8], abcFrame] { State.reset with inputs := [.reset] } = .next t := ⟨by decide, _, rfl⟩

/-- `StepRefusedExactlyWhen`: both refusals occur (U-13 for the counter). -/
theorem witness_StepRefusedExactlyWhen :
    refusedBy (step (given (.command [0x10#8, 0x10#8]) State.reset)) .malformedFrame = true ∧
    refusedBy (step (given (.command [0x20#8, 0, 0, 0, 0, 0, 0, 0, 1, 0]) (absorbing .sha256 0 0xFFFFFFFFFFFFFFF8)))
      .counterLimit = true := by decide

theorem witness_ResetInputLeavesIdleEngine :
    (given .reset (finished .sha256)).inputs = .reset :: [] ∧
    (given (.commandCutByReset abcFrame) (absorbing .sha256 3 24)).inputs = .commandCutByReset abcFrame :: [] := by decide

theorem witness_EnginesAreIndependent : ∃ sys', runEngines [0, 1, 0]
    #v[given (.command [0x10#8]) State.reset, given (.command [0x11#8]) State.reset] = .next sys' := ⟨_, rfl⟩

theorem witness_NotInitializedError : State.reset.ctx.ctxValid = false := by decide

theorem witness_AlreadyFinalizedError : phase (finished .sha512).ctx = .finalized ∧
    nextHas (step (given (.command [0x10#8]) (finished .sha512))) (fun t => phase t.ctx ≠ .finalized) = true := by decide

/-- `CtxValidWriters` and `FinalizedWriters`: a step of each kind answers a next state. -/
theorem witness_flag_writers : (∃ t, step State.reset = .next t) ∧
    (∃ t, step (given (.command [0x10#8]) State.reset) = .next t) ∧
    (∃ t, step (given (.command [0x30#8]) (absorbing .sha256 0 0)) = .next t) ∧
    (∃ t, step (given .reset (absorbing .sha256 0 0)) = .next t) := ⟨⟨_, rfl⟩, ⟨_, rfl⟩, ⟨_, rfl⟩, ⟨_, rfl⟩⟩

/-- `VariantAndHashWriters`, `BitCounterRule` and `InitFrame`: every command answers a next state. -/
theorem witness_every_command_completes : (∃ t, exec (.init .sha512) (finished .sha256) = .next t) ∧
    (∃ t, exec (.update 1 [0x61#8]) (absorbing .sha256 63 504) = .next t) ∧
    (∃ t, exec (.update 1 [0x61#8]) State.reset = .next t) ∧
    (∃ t, exec .finalize (absorbing .sha512 112 896) = .next t) := ⟨⟨_, rfl⟩, ⟨_, rfl⟩, ⟨_, rfl⟩, ⟨_, rfl⟩⟩

/-- The clauses of `VariantAndHashWriters`: the last free byte fills a block, an UPDATE in phase IDLE fails, and FINALIZE is
accepted with `buf_len < B` on both sides of `B - L`. -/
theorem witness_VariantAndHashWriters : guardStatus (absorbing .sha256 63 504).ctx = none ∧
    (blocksAbsorbed [0x61#8] (absorbing .sha256 63 504)) = [List.replicate 64 0x61#8] ∧
    guardStatus State.reset.ctx ≠ none ∧
    ∀ r ∈ [111, 112, 127], guardStatus (absorbing .sha512 r 0).ctx = none ∧
      (absorbing .sha512 r 0).ctx.bufLen < (absorbing .sha512 r 0).ctx.variant.blockBytes := by decide +kernel

/-- `StepKeepsInvariant`: the invariant holds in the middle of a computation, at the last buffer length and count. -/
theorem witness_StepKeepsInvariant : (given (.command [0x30#8]) (absorbing .sha256 63 0xFFFFFFFFFFFFFFF8)).Inv ∧
    ∃ t, step (given (.command [0x30#8]) (absorbing .sha256 63 0xFFFFFFFFFFFFFFF8)) = .next t :=
  ⟨⟨by decide, by decide, by decide, by decide, by decide⟩, _, rfl⟩

/-- `UnspecifiedValuesUnobservable`: two different states that look alike. -/
theorem witness_UnspecifiedValuesUnobservable :
    let s := absorbing .sha256 3 24
    let t := { absorbing .sha256 3 24 with ctx := { (absorbing .sha256 3 24).ctx with
      buf := Vector.ofFn fun i => if i.val < 3 then 0x61#8 else 0x00#8 }, draws := 9 }
    s.Inv ∧ t.Inv ∧ s.LooksLike t ∧ s ≠ t :=
  ⟨⟨by decide, by decide, by decide, by decide, by decide⟩, ⟨by decide, by decide, by decide, by decide, by decide⟩,
    ⟨⟨rfl, rfl, fun _ => rfl, fun _ => rfl, fun _ => rfl, fun _ => by decide⟩, rfl, rfl⟩,
    fun h => absurd (congrArg State.draws h) (by decide)⟩

/-- `UpdateCompletes`, `UpdateCompressesItsBlocks`, `UpdateFrame`: the last free byte and the last count (U-12). -/
theorem witness_UpdateCompletes : (Instr.update 1 [0]).WellFormed ∧
    phase (absorbing .sha256 63 0xFFFFFFFFFFFFFFF0).ctx = .absorbing ∧
    (absorbing .sha256 63 0xFFFFFFFFFFFFFFF0).ctx.bitCount.toNat + 8 * (1#64).toNat < 2 ^ Variant.counterBits .sha256 ∧
    (absorbing .sha256 63 0xFFFFFFFFFFFFFFF0).ctx.bufLen < Variant.blockBytes .sha256 ∧
    ∃ t, exec (.update 1 [0]) (absorbing .sha256 63 0xFFFFFFFFFFFFFFF0) = .next t :=
  ⟨by decide, by decide, by decide, by decide, _, rfl⟩

/-- The two inner premises of `UpdateFrame`: a byte the payload does not reach, and one it stores while no block fills. -/
theorem witness_UpdateFrame_bytes : (∀ j : Nat, j < [0x62#8].length → (62 + j) % Variant.blockBytes .sha256 ≠ 63) ∧
    62 + [0x62#8].length < Variant.blockBytes .sha256 ∧ 62 + 0 = (62 : Fin 128).val := by
  refine ⟨fun j h => ?_, by decide, by decide⟩
  obtain rfl : j = 0 := by simpa using h
  decide

/-- `AbsorbByteStep`, `AbsorbByteFrame`: the byte before the last, and the last. -/
theorem witness_AbsorbByteStep : 62 + 1 < Variant.blockBytes .sha256 ∧ 63 + 1 = Variant.blockBytes .sha256 ∧
    (absorbing .sha512 127 0).ctx.bufLen < Variant.blockBytes .sha512 := by decide

/-- `EmptyUpdateChangesNothing`: each phase; in ABSORBING at the last counter value (U-14). -/
theorem witness_EmptyUpdateChangesNothing : phase (absorbing .sha256 0 0xFFFFFFFFFFFFFFF8).ctx = .absorbing ∧
    (absorbing .sha256 0 0xFFFFFFFFFFFFFFF8).ctx.bitCount.toNat < 2 ^ Variant.counterBits .sha256 ∧
    phase State.reset.ctx = .idle ∧ phase (finished .sha256).ctx = .finalized := by decide

/-- `TwoUpdatesAreOneUpdate`: both sides of the equivalence are met across a block boundary (U-9's shape). -/
theorem witness_TwoUpdatesAreOneUpdate : phase (absorbing .sha256 63 504).ctx = .absorbing ∧
    [0x61#8].length + [0x62#8].length < 2 ^ 64 ∧
    (∃ w, exec (updateOf ([0x61#8] ++ [0x62#8])) (absorbing .sha256 63 504) = .next w) ∧
    ∃ t u, exec (updateOf [0x61#8]) (absorbing .sha256 63 504) = .next t ∧ exec (updateOf [0x62#8]) t = .next u :=
  ⟨by decide, by decide, ⟨_, rfl⟩, _, _, rfl, rfl⟩

/-- `ChunkingInvariance`: slices with an empty one, from the last counter value. -/
theorem witness_ChunkingInvariance : (absorbing .sha256 0 0xFFFFFFFFFFFFFFF8).ctx.bitCount.toNat < 2 ^ Variant.counterBits .sha256 ∧
    ∀ p ∈ [[0x61#8], [], [0x62#8, 0x63#8]], p.length < 2 ^ 64 := by decide

/-- The premise of `ChunkingInvariance` about FINALIZE. -/
theorem witness_ChunkingInvariance_finalize :
    (∃ t, exec .finalize (absorbSlices [[0x61#8], []] (absorbing .sha256 0 0)) = .next t) ∧
    ∃ u, exec .finalize (addBits 1 (absorbAll [0x61#8] (absorbing .sha256 0 0))) = .next u := ⟨⟨_, rfl⟩, _, rfl⟩

/-- `CounterLimitRefused` at both widths (U-13 and its SHA-512 counterpart). -/
theorem witness_CounterLimitRefused : phase (absorbing .sha256 0 0xFFFFFFFFFFFFFFF8).ctx = .absorbing ∧
    2 ^ Variant.counterBits .sha256 ≤ (absorbing .sha256 0 0xFFFFFFFFFFFFFFF8).ctx.bitCount.toNat + 8 * (1#64).toNat ∧
    2 ^ Variant.counterBits .sha512
      ≤ (absorbing .sha512 0 0xFFFFFFFFFFFFFFFFFFFFFFFFFFFFFFF8).ctx.bitCount.toNat + 8 * (1#64).toNat := by decide

/-- `ContextHoldsMessage`: a context that holds "aaa" in SHA-256, and an UPDATE it accepts. -/
theorem witness_ContextHoldsMessage : Holds (absorbing .sha256 3 24).ctx .sha256 [0x61#8, 0x61#8, 0x61#8] ∧
    ∃ t, exec (.update 1 [0x62#8]) (absorbing .sha256 3 24) = .next t :=
  ⟨⟨rfl, rfl, rfl, by decide, by decide, by decide, by decide⟩, _, rfl⟩

/-- `FinalizeEndState`, `PaddingLoopAppendsZeros`, `FinalizeCompressesOneOrTwoBlocks`, `PaddingMachineRefinesFinalize`,
`PaddingMachinePath`: buffer lengths on both sides of `B - L` and at `B - 1`, in phase ABSORBING. -/
theorem witness_finalize_boundaries :
    (∀ r ∈ [0, 55, 56, 63], phase (absorbing .sha256 r 0).ctx = .absorbing ∧ (absorbing .sha256 r 0).fstate = .idle ∧
      (absorbing .sha256 r 0).ctx.bufLen < (absorbing .sha256 r 0).ctx.variant.blockBytes) ∧
    (∀ r ∈ [0, 111, 112, 127], phase (absorbing .sha512 r 0).ctx = .absorbing ∧
      (absorbing .sha512 r 0).ctx.bufLen < (absorbing .sha512 r 0).ctx.variant.blockBytes) ∧
    (∃ t, exec .finalize (absorbing .sha256 56 448) = .next t) ∧
    ({ absorbing .sha256 56 448 with fstate := .mark } : State).fstate = .mark :=
  ⟨by decide, by decide, ⟨_, rfl⟩, rfl⟩

/-- `DigestSerialization`: the last digest byte of each variant. -/
theorem witness_DigestSerialization : 31 < 32 ∧ 63 < 64 ∧ (HashWords.sha256 iv256).bytes.getD 31 0 = 0x19#8 := by decide

/-- The path of F-5: `r = 63`, `Z = 56`, so 57 visits to `F_ZERO` and one to `F_FLUSH`. -/
theorem test_padding_path : zeroCount .sha256 63 = 56 ∧ fsmLength .sha256 63 = 1 + 57 + 1 + 3 ∧
    zeroCount .sha256 55 = 0 ∧ zeroCount .sha512 112 = 127 := by decide

theorem witness_FinalizeReturnsDigestOfMessage : Holds (absorbing .sha256 3 24).ctx .sha256 [0x61#8, 0x61#8, 0x61#8] ∧
    8 * [0x61#8, 0x61#8, 0x61#8].length < 2 ^ Variant.counterBits .sha256 :=
  ⟨witness_ContextHoldsMessage.1, by decide⟩

/-- `HostSequenceReturnsDigest`: a command list with no UPDATE, and one with an empty slice, from any state. -/
theorem witness_HostSequenceReturnsDigest :
    (∀ p ∈ [[0x61#8], [], [0x62#8, 0x63#8]], p.length < 2 ^ 64) ∧
    8 * ([[0x61#8], [], [0x62#8, 0x63#8]] : List (List Byte)).flatten.length < 2 ^ Variant.counterBits .sha256 ∧
    ({ finished .sha512 with inputs := (digestFrames .sha256 [[0x61#8], [], [0x62#8, 0x63#8]]).map .command ++ [.reset] } : State).inputs
      = (digestFrames .sha256 [[0x61#8], [], [0x62#8, 0x63#8]]).map .command ++ [.reset] := by decide

end Sys2Proof.Machine.Tests
end

section
/-!
PROOFS, family 10_state.md (O22, O29, O30, O31, O34, O35, O45): the registers of the context over every step, the
invariant of a command boundary, what an open context holds of its message, and what the host cannot see.
-/

namespace Sys2Proof.Machine

/-! ## From a command's next state back to what it did -/

theorem exec_init_next {v : Variant} {s t : State} (h : exec (.init v) s = .next t) :
    t = respond .ok [] { s with ctx := freshContext v s.ctx } := by
  obtain ⟨-, -, hne, -⟩ | ⟨v', hv, rfl⟩ | ⟨_, _, hi, -⟩ | ⟨hi, -⟩ := exec_next_cases h
  · exact absurd rfl (hne v)
  · cases hv; rfl
  · cases hi
  · cases hi

/-- UPDATE that answers a next state: the guard's error, or the slice absorbed (44_init_update.md R221). -/
theorem exec_update_cases {len : BitVec 64} {p : List Byte} {s t : State} (h : exec (.update len p) s = .next t) :
    (∃ e, guardStatus s.ctx = some e ∧ t = respond e [] s) ∨
    (guardStatus s.ctx = none ∧ t = respond .ok [] (absorbSlice len p s)) := by
  obtain ⟨e, hg, -, ht⟩ | ⟨v, hi, -⟩ | ⟨_, _, hi, hg, -, ht⟩ | ⟨hi, -⟩ := exec_next_cases h
  · exact .inl ⟨e, hg, ht⟩
  · cases hi
  · cases hi; exact .inr ⟨hg, ht⟩
  · cases hi

/-- FINALIZE that answers a next state: the guard's error, or the digest of the padded message (45_finalize.md R250). -/
theorem exec_finalize_cases {s t : State} (h : exec .finalize s = .next t) :
    (∃ e, guardStatus s.ctx = some e ∧ t = respond e [] s) ∨
    (guardStatus s.ctx = none ∧ t = emitDigest (padMessage s)) := by
  obtain ⟨e, hg, -, ht⟩ | ⟨v, hi, -⟩ | ⟨_, _, hi, -⟩ | ⟨-, hg, ht⟩ := exec_next_cases h
  · exact .inl ⟨e, hg, ht⟩
  · cases hi
  · cases hi
  · exact .inr ⟨hg, ht⟩

/-! ## The answers of a command that its guard or the counter stops, and of a step -/

theorem exec_update_raises {len : BitVec 64} {p : List Byte} {s : State} {e : Status} (hg : guardStatus s.ctx = some e) :
    exec (.update len p) s = .next (respond e [] s) := by
  simp only [exec, execUpdate, hg, raise]

/-- At the counter limit an UPDATE in phase ABSORBING gets no step (44_init_update.md R227). -/
theorem exec_update_refused {len : BitVec 64} {p : List Byte} {s : State} (hp : phase s.ctx = .absorbing)
    (hl : 2 ^ s.ctx.variant.counterBits ≤ s.ctx.bitCount.toNat + 8 * len.toNat) :
    exec (.update len p) s = .refused .counterLimit := by
  have hg := guardStatus_none.mpr (phase_absorbing.mp hp)
  simp only [exec, execUpdate, hg]
  exact if_pos hl

theorem exec_finalize_raises {s : State} {e : Status} (hg : guardStatus s.ctx = some e) :
    exec .finalize s = .next (respond e [] s) := by
  simp only [exec, execFinalize, hg, raise]

theorem step_without_input {s : State} (h : s.inputs = []) : step s = .next s := by
  simp only [step, h]

theorem step_with_input {s : State} {x : HostInput} {rest : List HostInput} (h : s.inputs = x :: rest) :
    step s = runInput x { s with inputs := rest } := by
  simp only [step, h]

/-! ## The slice of an accepted UPDATE, field by field -/

section slice
variable (len : BitVec 64) (p : List Byte) (s : State)

@[simp] theorem absorbSlice_ctxValid : (absorbSlice len p s).ctx.ctxValid = s.ctx.ctxValid := by simp [absorbSlice]

@[simp] theorem absorbSlice_finalized : (absorbSlice len p s).ctx.finalized = s.ctx.finalized := by simp [absorbSlice]

@[simp] theorem absorbSlice_variant : (absorbSlice len p s).ctx.variant = s.ctx.variant := by simp [absorbSlice]

@[simp] theorem absorbSlice_fstate : (absorbSlice len p s).fstate = s.fstate := by simp [absorbSlice]

@[simp] theorem absorbSlice_inputs : (absorbSlice len p s).inputs = s.inputs := by simp [absorbSlice]

@[simp] theorem absorbSlice_responses : (absorbSlice len p s).responses = s.responses := by simp [absorbSlice]

@[simp] theorem absorbSlice_hash : (absorbSlice len p s).ctx.hash = (absorbAll p s).ctx.hash := rfl

@[simp] theorem absorbSlice_bufLen : (absorbSlice len p s).ctx.bufLen = (absorbAll p s).ctx.bufLen := rfl

@[simp] theorem absorbSlice_bufRead (n : Nat) :
    bufRead (absorbSlice len p s).ctx n = bufRead (absorbAll p s).ctx n := rfl

@[simp] theorem absorbSlice_bitCount : (absorbSlice len p s).ctx.bitCount
    = BitVec.ofNat 128 ((s.ctx.bitCount.toNat + 8 * len.toNat) % 2 ^ s.ctx.variant.counterBits) := by
  simp [absorbSlice]

end slice

theorem length_of_update_wellFormed {len : BitVec 64} {p : List Byte} (h : (Instr.update len p).WellFormed) :
    p.length = len.toNat := by
  simpa [Instr.WellFormed, Instr.wellFormed] using h

/-! ## The buffer length after a run of byte steps -/

theorem absorbAll_bufLen_lt (xs : List Byte) {s : State} (h : s.ctx.bufLen < s.ctx.variant.blockBytes) :
    (absorbAll xs s).ctx.bufLen < s.ctx.variant.blockBytes := by
  obtain ⟨-, hlen, -⟩ := absorbAll_spec xs s h
  rw [hlen]
  exact Nat.mod_lt _ (blockBytes_pos _)

/-- The length field fills the last block, so the padding leaves the buffer empty (45_finalize.md R254, R256). -/
theorem padMessage_bufLen {s : State} (h : s.ctx.bufLen < s.ctx.variant.blockBytes) :
    (padMessage s).ctx.bufLen = 0 := by
  obtain ⟨-, hz, hstop⟩ := padMessage_spec s h
  have hv : (padZeros s.ctx.variant.blockBytes (padMark s)).ctx.variant = s.ctx.variant := by
    rw [hz]; simp [padMark]
  have hL : 0 < s.ctx.variant.lengthBytes ∧ s.ctx.variant.lengthBytes < s.ctx.variant.blockBytes := by
    cases s.ctx.variant <;> decide
  obtain ⟨-, hlen, -⟩ := absorbAll_spec (lengthField (padZeros s.ctx.variant.blockBytes (padMark s)).ctx)
    (padZeros s.ctx.variant.blockBytes (padMark s)) (by rw [hstop, hv]; omega)
  have hsum : s.ctx.variant.blockBytes - s.ctx.variant.lengthBytes + s.ctx.variant.lengthBytes
      = s.ctx.variant.blockBytes := by omega
  rw [padMessage, padLength, hlen, hstop, lengthField, beBytes_length, hv, hsum, Nat.mod_self]

/-! ## The invariant of a command boundary -/

/-- The invariant speaks of the context and the padding machine alone. -/
theorem State.Inv.congr {s t : State} (h : s.Inv) (hc : t.ctx = s.ctx) (hf : t.fstate = s.fstate) : t.Inv :=
  ⟨hc ▸ h.phase, hf.trans h.fstate, hc ▸ h.bufLen, hc ▸ h.empty, hc ▸ h.bitCount⟩

theorem resetEngine_inv (s : State) : (resetEngine s).Inv where
  phase h := by simp at h
  fstate := rfl
  bufLen h := by simp at h
  empty h := by simp at h
  bitCount h := by simp at h

theorem init_inv (v : Variant) {s : State} (h : s.fstate = .idle) :
    (respond .ok [] { s with ctx := freshContext v s.ctx }).Inv where
  phase _ := rfl
  fstate := h
  bufLen _ := blockBytes_pos _
  empty _ := rfl
  bitCount _ := by simp

theorem absorbSlice_inv (len : BitVec 64) (p : List Byte) {s : State} (h : s.Inv)
    (hg : guardStatus s.ctx = none) : (absorbSlice len p s).Inv := by
  obtain ⟨hvalid, hopen⟩ := guardStatus_none.mp hg
  constructor
  case phase => simp [hopen]
  case fstate => simp [h.fstate]
  case bufLen => simpa using fun _ => absorbAll_bufLen_lt p (h.bufLen hvalid)
  case empty => simp [hopen]
  case bitCount =>
    intro _
    rw [absorbSlice_bitCount, absorbSlice_variant, counter_fits]
    exact Nat.mod_lt _ (by positivity)

theorem finalize_inv {s : State} (h : s.Inv) (hg : guardStatus s.ctx = none) :
    (emitDigest (padMessage s)).Inv := by
  obtain ⟨hvalid, -⟩ := guardStatus_none.mp hg
  have hempty : (padMessage s).ctx.bufLen = 0 := padMessage_bufLen (h.bufLen hvalid)
  constructor
  case phase => simp [hvalid]
  case fstate => simp [h.fstate]
  case bufLen => simp [hempty, blockBytes_pos]
  case empty => simp [hempty]
  case bitCount => simpa using h.bitCount

theorem exec_keeps_inv {i : Instr} {s t : State} (h : s.Inv) (he : exec i s = .next t) : t.Inv := by
  obtain ⟨e, -, -, rfl⟩ | ⟨v, -, rfl⟩ | ⟨len, p, -, hg, -, rfl⟩ | ⟨-, hg, rfl⟩ := exec_next_cases he
  · exact h.congr rfl rfl
  · exact init_inv v h.fstate
  · exact (absorbSlice_inv len p h hg).congr rfl rfl
  · exact finalize_inv h hg

/-- Settles O34: by cases on what a step can do, and for a command on what it can do. -/
theorem stepKeepsInvariant : Obligations.StepKeepsInvariant := by
  intro s t h hstep
  obtain ⟨-, rfl⟩ | ⟨f, rest, -, -, rfl⟩ | ⟨f, rest, i, -, -, he⟩ | ⟨x, rest, -, -, rfl⟩ := step_next_cases hstep
  · exact h
  · exact h.congr rfl rfl
  · exact exec_keeps_inv (s := { s with inputs := rest }) (h.congr rfl rfl) he
  · exact resetEngine_inv _

/-! ## What an open context holds of its message -/

theorem Holds.bufLen_lt {c : Context} {v : Variant} {msg : List Byte} (h : Holds c v msg) :
    c.bufLen < c.variant.blockBytes := by
  rw [h.bufLen, h.variant]
  exact Nat.mod_lt _ (blockBytes_pos v)

theorem freshContext_holds (v : Variant) (c : Context) : Holds (freshContext v c) v [] where
  ctxValid := rfl
  finalized := rfl
  variant := freshContext_variant v c
  bufLen := by simp
  buf := by simp [bufRead, partialBlock]
  bitCount := by simp
  hash := by simp [fullBlocks, foldBlocks]

/-- A slice extends the message held: the blocks it fills are those of the valid bytes with the payload behind them. -/
theorem absorbSlice_holds {v : Variant} {msg p : List Byte} {len : BitVec 64} {s : State}
    (h : Holds s.ctx v msg) (hp : p.length = len.toNat) : Holds (absorbSlice len p s).ctx v (msg ++ p) := by
  obtain ⟨hhash, hlen, hbuf, -⟩ := absorbAll_spec p s h.bufLen_lt
  obtain ⟨hfull, hpartial⟩ := blocks_append (blockBytes_pos v) msg p
  rw [h.variant, h.buf] at hhash hbuf
  constructor
  case ctxValid => simp [h.ctxValid]
  case finalized => simp [h.finalized]
  case variant => simp [h.variant]
  case bufLen => rw [absorbSlice_bufLen, hlen, h.variant, h.bufLen, Nat.mod_add_mod, List.length_append]
  case buf => rw [absorbSlice_bufRead, absorbSlice_bufLen, hbuf, hpartial]
  case bitCount =>
    rw [absorbSlice_bitCount, counter_fits, h.variant, h.bitCount, Nat.mod_add_mod, List.length_append, hp, Nat.mul_add]
  case hash => rw [absorbSlice_hash, hhash, h.hash, ← foldBlocks_append, hfull]

/-- Settles O45: the fresh context holds the empty message, and a slice extends the message held. -/
theorem contextHoldsMessage : Obligations.ContextHoldsMessage := by
  refine ⟨fun v s t he => ?_, fun v msg p len s t h hw he => ?_⟩
  · rw [exec_init_next he]
    exact freshContext_holds v s.ctx
  · have hp : phase s.ctx = .absorbing := phase_absorbing.mpr ⟨h.ctxValid, h.finalized⟩
    obtain ⟨rfl, -⟩ := exec_update_next hp he
    exact absorbSlice_holds h (length_of_update_wellFormed hw)

/-! ## Contexts with the same meaning -/

/-- Outside phase ABSORBING the flags are all the meaning (10_state.md R39). -/
theorem SameMeaning.of_flags {c d : Context} (hv : c.ctxValid = d.ctxValid) (hf : c.finalized = d.finalized)
    (hp : phase c ≠ .absorbing) : SameMeaning c d :=
  ⟨hv, hf, fun h => absurd h hp, fun h => absurd h hp, fun h => absurd h hp, fun h => absurd h hp⟩

theorem SameMeaning.guardStatus_eq {c d : Context} (h : SameMeaning c d) : guardStatus c = guardStatus d := by
  simp only [guardStatus, h.ctxValid, h.finalized]

theorem SameMeaning.phase_eq {c d : Context} (h : SameMeaning c d) : phase c = phase d := by
  simp only [phase, h.ctxValid, h.finalized]

theorem resetContext_sameMeaning (m n : Nat) : SameMeaning (resetContext m) (resetContext n) :=
  .of_flags rfl rfl (by simp [phase_absorbing])

theorem freshContext_sameMeaning (v : Variant) (c d : Context) :
    SameMeaning (freshContext v c) (freshContext v d) :=
  ⟨rfl, rfl, fun _ => rfl, fun _ => rfl, fun _ => rfl, fun _ => rfl⟩

section alike
variable {s t : State}

/-- A run of byte steps computes from the hash words, the buffer length and the valid bytes alone. -/
theorem absorbAll_congr (xs : List Byte) (hs : s.ctx.bufLen < s.ctx.variant.blockBytes)
    (hhash : s.ctx.hash = t.ctx.hash) (hlen : s.ctx.bufLen = t.ctx.bufLen)
    (hbuf : bufRead s.ctx s.ctx.bufLen = bufRead t.ctx t.ctx.bufLen) :
    (absorbAll xs s).ctx.hash = (absorbAll xs t).ctx.hash ∧
    (absorbAll xs s).ctx.bufLen = (absorbAll xs t).ctx.bufLen ∧
    bufRead (absorbAll xs s).ctx (absorbAll xs s).ctx.bufLen
      = bufRead (absorbAll xs t).ctx (absorbAll xs t).ctx.bufLen := by
  have hv : s.ctx.variant = t.ctx.variant := congrArg HashWords.variant hhash
  obtain ⟨s1, s2, s3, -⟩ := absorbAll_spec xs s hs
  obtain ⟨t1, t2, t3, -⟩ := absorbAll_spec xs t (hv ▸ hlen ▸ hs)
  exact ⟨by rw [s1, t1, hhash, hv, hbuf], by rw [s2, t2, hlen, hv], by rw [s3, t3, hv, hbuf]⟩

/-- A slice keeps two open contexts alike. -/
theorem absorbSlice_sameMeaning (len : BitVec 64) (p : List Byte) (hs : s.Inv) (h : SameMeaning s.ctx t.ctx)
    (hp : phase s.ctx = .absorbing) : SameMeaning (absorbSlice len p s).ctx (absorbSlice len p t).ctx := by
  have hv : s.ctx.variant = t.ctx.variant := congrArg HashWords.variant (h.hash hp)
  obtain ⟨hhash, hlen, hbuf⟩ := absorbAll_congr p (hs.bufLen (phase_absorbing.mp hp).1) (h.hash hp) (h.bufLen hp)
    (h.buf hp)
  constructor
  case ctxValid => simp [h.ctxValid]
  case finalized => simp [h.finalized]
  case hash => exact fun _ => hhash
  case bufLen => exact fun _ => hlen
  case bitCount => intro _; rw [absorbSlice_bitCount, absorbSlice_bitCount, h.bitCount hp, hv]
  case buf => exact fun _ => hbuf

/-- The padding of two open contexts that are alike ends in the same hash words. -/
theorem padMessage_hash_congr (hs : s.Inv) (h : SameMeaning s.ctx t.ctx) (hp : phase s.ctx = .absorbing) :
    (padMessage s).ctx.hash = (padMessage t).ctx.hash := by
  have hv : s.ctx.variant = t.ctx.variant := congrArg HashWords.variant (h.hash hp)
  have hlt : s.ctx.bufLen < s.ctx.variant.blockBytes := hs.bufLen (phase_absorbing.mp hp).1
  have hpad : paddingBytes s.ctx = paddingBytes t.ctx := by
    simp only [paddingBytes, lengthField, hv, h.bufLen hp, h.bitCount hp]
  rw [(padMessage_spec s hlt).1, (padMessage_spec t (hv ▸ h.bufLen hp ▸ hlt)).1, ← hpad]
  exact (absorbAll_congr _ hlt (h.hash hp) (h.bufLen hp) (h.buf hp)).1

/-! ## Outcomes the host cannot tell apart -/

theorem State.LooksLike.respond (st : Status) (d : List Byte) (h : s.LooksLike t) :
    (respond st d s).LooksLike (respond st d t) :=
  ⟨h.ctx, h.inputs, by simp [h.responses]⟩

theorem exec_init_alike (v : Variant) (h : s.LooksLike t) : OutcomesAlike (exec (.init v) s) (exec (.init v) t) :=
  State.LooksLike.respond .ok [] ⟨freshContext_sameMeaning v _ _, h.inputs, h.responses⟩

theorem exec_update_alike (len : BitVec 64) (p : List Byte) (hs : s.Inv) (h : s.LooksLike t) :
    OutcomesAlike (exec (.update len p) s) (exec (.update len p) t) := by
  rcases hg : guardStatus s.ctx with _ | e
  · have hp : phase s.ctx = .absorbing := phase_absorbing.mpr (guardStatus_none.mp hg)
    have hp' : phase t.ctx = .absorbing := h.ctx.phase_eq ▸ hp
    have hv : s.ctx.variant = t.ctx.variant := congrArg HashWords.variant (h.ctx.hash hp)
    by_cases hl : s.ctx.bitCount.toNat + 8 * len.toNat < 2 ^ s.ctx.variant.counterBits
    · rw [exec_update_accepted hp hl, exec_update_accepted hp' (h.ctx.bitCount hp ▸ hv ▸ hl)]
      exact State.LooksLike.respond .ok []
        ⟨absorbSlice_sameMeaning len p hs h.ctx hp, by simp [h.inputs], by simp [h.responses]⟩
    · have hl := Nat.le_of_not_lt hl
      rw [exec_update_refused hp hl, exec_update_refused hp' (h.ctx.bitCount hp ▸ hv ▸ hl)]
      rfl
  · rw [exec_update_raises hg, exec_update_raises (h.ctx.guardStatus_eq ▸ hg)]
    exact h.respond e []

theorem exec_finalize_alike (hs : s.Inv) (h : s.LooksLike t) :
    OutcomesAlike (exec .finalize s) (exec .finalize t) := by
  rcases hg : guardStatus s.ctx with _ | e
  · have hp : phase s.ctx = .absorbing := phase_absorbing.mpr (guardStatus_none.mp hg)
    rw [exec_finalize_accepted hp, exec_finalize_accepted (h.ctx.phase_eq ▸ hp)]
    have hclosed : phase (emitDigest (padMessage s)).ctx ≠ .absorbing := by simp [phase_absorbing]
    refine ⟨.of_flags ?_ rfl hclosed, ?_, ?_⟩
    · simp [h.ctx.ctxValid]
    · simp [h.inputs]
    · simp [h.responses, padMessage_hash_congr hs h.ctx hp]
  · rw [exec_finalize_raises hg, exec_finalize_raises (h.ctx.guardStatus_eq ▸ hg)]
    exact h.respond e []

theorem exec_alike (i : Instr) (hs : s.Inv) (h : s.LooksLike t) : OutcomesAlike (exec i s) (exec i t) := by
  cases i with
  | init v => exact exec_init_alike v h
  | update len p => exact exec_update_alike len p hs h
  | finalize => exact exec_finalize_alike hs h

theorem runFrame_alike (f : Frame) (hs : s.Inv) (h : s.LooksLike t) :
    OutcomesAlike (runFrame f s) (runFrame f t) := by
  unfold runFrame
  rcases decodeFrame f with (_ | _) | i
  · exact h.respond .illegalCommand []
  · rfl
  · exact exec_alike i hs h

theorem resetEngine_looksLike (h : s.LooksLike t) : (resetEngine s).LooksLike (resetEngine t) :=
  ⟨resetContext_sameMeaning _ _, h.inputs, h.responses⟩

theorem runInput_alike (x : HostInput) (hs : s.Inv) (h : s.LooksLike t) :
    OutcomesAlike (runInput x s) (runInput x t) := by
  cases x with
  | command f => exact runFrame_alike f hs h
  | reset => exact resetEngine_looksLike h
  | commandCutByReset f => exact resetEngine_looksLike h

end alike

/-- Settles O35: by cases on the input both engines take; the guards read the flags, and the byte steps only what an open
context means. -/
theorem unspecifiedValuesUnobservable : Obligations.UnspecifiedValuesUnobservable := by
  intro s t hs _ h
  rcases hin : s.inputs with _ | ⟨x, rest⟩
  · rw [step_without_input hin, step_without_input (h.inputs ▸ hin)]
    exact h
  · rw [step_with_input hin, step_with_input (h.inputs ▸ hin)]
    exact runInput_alike x (hs.congr rfl rfl) ⟨h.ctx, rfl, h.responses⟩

/-! ## Who writes the flags, the variant and the hash words -/

theorem exec_update_flags {len : BitVec 64} {p : List Byte} {s t : State} (he : exec (.update len p) s = .next t) :
    t.ctx.ctxValid = s.ctx.ctxValid ∧ t.ctx.finalized = s.ctx.finalized := by
  obtain ⟨e, -, rfl⟩ | ⟨-, rfl⟩ := exec_update_cases he
  · exact ⟨rfl, rfl⟩
  · simp

/-- The one formula covers the failures too: `finalized` is left alone, and the guard failed either with `ctx_valid = 0` or
with `finalized` already 1 (10_state.md R32). -/
theorem exec_finalize_flags {s t : State} (he : exec .finalize s = .next t) :
    t.ctx.ctxValid = s.ctx.ctxValid ∧ t.ctx.finalized = (s.ctx.finalized || s.ctx.ctxValid) := by
  obtain ⟨e, hg, rfl⟩ | ⟨hg, rfl⟩ := exec_finalize_cases he
  · obtain ⟨-, hv⟩ | ⟨-, -, hf⟩ := guardStatus_some hg
    · simp [hv]
    · simp [hf]
  · simp [(guardStatus_none.mp hg).1]

/-- Settles O29: by cases on what a step can do, and for a command by the command. -/
theorem ctxValidWriters : Obligations.CtxValidWriters := by
  intro s t hstep
  obtain ⟨hin, rfl⟩ | ⟨f, rest, hin, hd, rfl⟩ | ⟨f, rest, i, hin, hd, he⟩ | ⟨x, rest, hin, hx, rfl⟩ :=
    step_next_cases hstep
  · simp [hin]
  · simp [hin, hd]
  · cases i with
    | init v => simp [hin, hd, exec_init_next he]
    | update len p => simp [hin, hd, (exec_update_flags he).1]
    | finalize => simp [hin, hd, (exec_finalize_flags he).1]
  · obtain rfl | ⟨f, rfl⟩ := hx <;> simp [hin]

/-- Settles O30: by cases on what a step can do, and for a command by the command. -/
theorem finalizedWriters : Obligations.FinalizedWriters := by
  intro s t hstep
  obtain ⟨hin, rfl⟩ | ⟨f, rest, hin, hd, rfl⟩ | ⟨f, rest, i, hin, hd, he⟩ | ⟨x, rest, hin, hx, rfl⟩ :=
    step_next_cases hstep
  · simp [hin]
  · simp [hin, hd]
  · cases i with
    | init v => simp [hin, hd, exec_init_next he]
    | update len p => simp [hin, hd, (exec_update_flags he).2]
    | finalize => simp [hin, hd, (exec_finalize_flags he).2]
  · obtain rfl | ⟨f, rfl⟩ := hx <;> simp [hin]

/-- Settles O31: an accepted command changes the hash words by its byte steps alone, and a failed one only responds. -/
theorem variantAndHashWriters : Obligations.VariantAndHashWriters := by
  refine ⟨blocksAbsorbed_block_length, fun i s t he => ?_⟩
  cases i with
  | init v =>
    rw [exec_init_next he]
    exact ⟨freshContext_variant v s.ctx, rfl⟩
  | update len p =>
    obtain ⟨e, hg, rfl⟩ | ⟨hg, rfl⟩ := exec_update_cases he
    · simp [hg, foldBlocks]
    · simp [hg, absorbAll_hash]
  | finalize =>
    obtain ⟨e, hg, rfl⟩ | ⟨hg, rfl⟩ := exec_finalize_cases he
    · simp [hg, foldBlocks]
    · refine ⟨by simp, fun hb => ?_⟩
      rw [if_pos hg, emitDigest_hash, (padMessage_spec s (hb hg)).1, absorbAll_hash]

/-- Settles O22: the values R48 gives are the ones the reset state is written with. -/
theorem resetStateIsIdle : Obligations.ResetStateIsIdle := ⟨rfl, rfl, rfl, rfl⟩

end Sys2Proof.Machine
end

section
/-!
PROOFS, family 20_memory.md (O1, O2, O18, O20, O24, O42): big-endian words and bytes, the step on a frame, the fold of the
command rules over a sequence of frames, engines side by side, and UPDATE of a payload in two slices.
-/

namespace Sys2Proof

/-! ## Big-endian words -/

/-- One more byte, at the least significant end. -/
theorem ofNat_append_byte (w n : Nat) (x : Byte) :
    BitVec.ofNat (w + 8) (n * 256 + x.toNat) = BitVec.ofNat w n ++ x := by
  apply BitVec.eq_of_toNat_eq
  have hx : x.toNat < 2 ^ 8 := x.isLt
  have hdiv : (n * 256 + x.toNat) / 2 ^ 8 = n := by omega
  rw [BitVec.toNat_append, BitVec.toNat_ofNat, BitVec.toNat_ofNat, ← Nat.shiftLeft_add_eq_or_of_lt hx,
    Nat.shiftLeft_eq, Nat.pow_add, Nat.mul_comm (2 ^ w), Nat.mod_mul, hdiv]
  omega

/-- A word of eight more bits reads one more byte, which becomes the least significant (20_memory.md R70). -/
theorem beWord_add_byte (w : Nat) {s : List Byte} {i : Nat} (h : i + w / 8 < s.length) :
    beWord (w + 8) s i = beWord w s i ++ s[i + w / 8] := by
  have hbytes : (s.drop i).take ((w + 8) / 8) = (s.drop i).take (w / 8) ++ [s[i + w / 8]] := by
    rw [Nat.add_div_right w (by decide), List.take_add_one, List.getElem?_drop, List.getElem?_eq_getElem h]
    rfl
  have hlast : beNat [s[i + w / 8]] = s[i + w / 8].toNat := by simp [beNat]
  rw [beWord, hbytes, beNat_append, hlast, List.length_singleton, pow_one]
  exact ofNat_append_byte w _ _

theorem beWord_byte {s : List Byte} {i : Nat} (h : i < s.length) : beWord 8 s i = s[i] := by
  have hbytes : (s.drop i).take (8 / 8) = [s[i]] := by rw [List.drop_eq_getElem_cons h]; rfl
  rw [beWord, hbytes]
  simp [beNat]

/-- Parsing the bytes of a whole number of bytes gives the word back (20_memory.md R71). -/
theorem beWord_beBytes {w n : Nat} (hw : w = 8 * n) (x : BitVec w) : beWord w (beBytes x.toNat n) 0 = x := by
  subst hw
  have hx : x.toNat < 256 ^ n := by
    have := x.isLt
    rwa [Nat.pow_mul] at this
  apply BitVec.eq_of_toNat_eq
  rw [beWord, List.drop_zero, Nat.mul_div_cancel_left n (by decide), List.take_of_length_le (by simp), beNat_beBytes,
    Nat.mod_eq_of_lt hx, BitVec.ofNat_toNat, BitVec.setWidth_eq]

/-- Settles O1: a word of four or eight bytes is read one byte at a time. -/
theorem bigEndianWordIsConcatenation : Obligations.BigEndianWordIsConcatenation := by
  constructor
  · intro s i h
    rw [beWord_add_byte 24 (by omega), beWord_add_byte 16 (by omega), beWord_add_byte 8 (by omega),
      beWord_byte (by omega)]
  · intro s i h
    rw [beWord_add_byte 56 (by omega), beWord_add_byte 48 (by omega), beWord_add_byte 40 (by omega),
      beWord_add_byte 32 (by omega), beWord_add_byte 24 (by omega), beWord_add_byte 16 (by omega),
      beWord_add_byte 8 (by omega), beWord_byte (by omega)]

/-- Settles O2: each byte is a shift of the value, and reading the bytes back gives the value modulo `256 ^ n`. -/
theorem bigEndianBytesAndBack : Obligations.BigEndianBytesAndBack := by
  refine ⟨?byte, beBytes_length, ?back, beWord_beBytes rfl, beWord_beBytes rfl⟩
  case byte =>
    intro v n k h
    simp [beBytes, Nat.shiftRight_eq_div_pow]
  case back =>
    intro v n h
    rw [beNat_beBytes]
    exact Nat.mod_eq_of_lt (by rwa [Nat.pow_mul] at h)

end Sys2Proof

namespace Sys2Proof.Machine

/-! ## A transaction and the step that runs it -/

theorem runFrame_decoded {f : Frame} {i : Instr} (hd : decodeFrame f = .ok i) (s : State) : runFrame f s = exec i s := by
  simp only [runFrame, hd]

theorem runFrame_illegal {f : Frame} (hd : decodeFrame f = .error .illegalCommand) (s : State) :
    runFrame f s = .next (respond .illegalCommand [] s) := by
  simp only [runFrame, hd, raise]

/-- Every way a transaction answers a next state: an illegal command byte, or a command (30_encoding.md R110). -/
theorem runFrame_next_cases {f : Frame} {s t : State} (h : runFrame f s = .next t) :
    (decodeFrame f = .error .illegalCommand ∧ t = respond .illegalCommand [] s) ∨
    (∃ i, decodeFrame f = .ok i ∧ exec i s = .next t) := by
  rcases hd : decodeFrame f with (_ | _) | i
  · rw [runFrame_illegal hd, Host.Outcome.next.injEq] at h
    exact .inl ⟨rfl, h.symm⟩
  · simp [runFrame, hd] at h
  · rw [runFrame_decoded hd] at h
    exact .inr ⟨i, rfl, h⟩

/-- Settles O18: the next input is that frame, and a transaction runs the command its frame decodes to. -/
theorem stepRunsDecodedCommand : Obligations.StepRunsDecodedCommand := by
  intro s f i rest hin hd
  rw [step_with_input hin]
  exact runFrame_decoded hd _

/-- A transaction takes no input of its own and returns one response (30_encoding.md R109). -/
theorem runFrame_inputs_responses {f : Frame} {s t : State} (h : runFrame f s = .next t) :
    t.inputs = s.inputs ∧ ∃ r, t.responses = s.responses ++ [r] := by
  obtain ⟨-, rfl⟩ | ⟨i, -, he⟩ := runFrame_next_cases h
  · exact ⟨rfl, _, rfl⟩
  · exact exec_inputs_responses he

/-- A transaction's outcome does not depend on the inputs still to come (20_memory.md R82). -/
theorem runFrame_withInputs {f : Frame} {s t : State} (a : List HostInput) (h : runFrame f s = .next t) :
    runFrame f { s with inputs := a } = .next { t with inputs := a } := by
  obtain ⟨hd, rfl⟩ | ⟨i, hd, he⟩ := runFrame_next_cases h
  · exact runFrame_illegal hd _
  · rw [runFrame_decoded hd, exec_withInputs a he]

/-! ## The fold of the command rules -/

theorem runFrames_cons {f : Frame} {s u : State} (h : runFrame f s = .next u) (fs : List Frame) :
    runFrames (f :: fs) s = runFrames fs u := by
  simp only [runFrames, h]

theorem runFrames_cons_next {f : Frame} {fs : List Frame} {s t : State} (h : runFrames (f :: fs) s = .next t) :
    ∃ u, runFrame f s = .next u ∧ runFrames fs u = .next t := by
  rcases hf : runFrame f s with u | r | r
  · exact ⟨u, rfl, runFrames_cons hf fs ▸ h⟩
  · simp [runFrames, hf] at h
  · simp [runFrames, hf] at h

theorem runSteps_succ {s u : State} (h : step s = .next u) (k : Nat) : runSteps (k + 1) s = runSteps k u := by
  simp only [runSteps, h]

theorem runFrames_inputs {fs : List Frame} {s t : State} (h : runFrames fs s = .next t) : t.inputs = s.inputs := by
  induction fs generalizing s with
  | nil => cases h; rfl
  | cons f fs ih =>
    obtain ⟨u, hu, hrun⟩ := runFrames_cons_next h
    exact (ih hrun).trans (runFrame_inputs_responses hu).1

/-- The steps take the frames from the host's inputs one by one; the fold has them from the start. -/
theorem runSteps_of_runFrames {fs : List Frame} {s t : State} {rest : List HostInput}
    (hin : s.inputs = fs.map .command ++ rest) (h : runFrames fs { s with inputs := rest } = .next t) :
    runSteps fs.length s = .next t := by
  induction fs generalizing s with
  | nil =>
    have hs : { s with inputs := rest } = s := by rw [← show s.inputs = rest from hin]
    rw [hs] at h
    exact h
  | cons f fs ih =>
    obtain ⟨u, hu, hrun⟩ := runFrames_cons_next h
    have hstep : step s = .next { u with inputs := fs.map .command ++ rest } :=
      (step_with_input hin).trans (runFrame_withInputs (s := { s with inputs := rest }) _ hu)
    have hrest : { u with inputs := rest } = u := by rw [← show u.inputs = rest from (runFrame_inputs_responses hu).1]
    rw [List.length_cons, runSteps_succ hstep]
    exact ih rfl (hrest.symm ▸ hrun)

/-- The fold returns one response for each frame, in order: after the first `k` frames the first `k` have been returned
(20_memory.md R82). -/
theorem runFrames_responses {fs : List Frame} {s t : State} (h : runFrames fs s = .next t) :
    ∃ rs : List Frame, t.responses = s.responses ++ rs ∧ rs.length = fs.length ∧
      ∀ k ≤ fs.length, ∃ u, runFrames (fs.take k) s = .next u ∧ u.responses = s.responses ++ rs.take k := by
  induction fs generalizing s with
  | nil =>
    cases h
    exact ⟨[], by simp, rfl, fun k _ => ⟨t, by simp [runFrames], by simp⟩⟩
  | cons f fs ih =>
    obtain ⟨u, hu, hrun⟩ := runFrames_cons_next h
    obtain ⟨-, r, hr⟩ := runFrame_inputs_responses hu
    obtain ⟨rs, hresp, hlen, hfirst⟩ := ih hrun
    refine ⟨r :: rs, by simp [hresp, hr], by simp [hlen], fun k hk => ?_⟩
    cases k with
    | zero => exact ⟨s, rfl, by simp⟩
    | succ k =>
      obtain ⟨u', hrun', hresp'⟩ := hfirst k (Nat.le_of_succ_le_succ hk)
      exact ⟨u', by rw [List.take_succ_cons, runFrames_cons hu, hrun'], by simp [hresp', hr]⟩

/-- Settles O20: by induction on the frames; a transaction looks at no later input and returns one response. -/
theorem commandsFoldInOrder : Obligations.CommandsFoldInOrder := by
  intro fs s t rest hin h
  exact ⟨runSteps_of_runFrames hin h, runFrames_inputs h, runFrames_responses h⟩

/-! ## Engines side by side -/

theorem stepEngine_next {n : Nat} {i : Fin n} {sys sys' : Vector State n} (h : stepEngine i sys = .next sys') :
    ∃ t, step sys[i] = .next t ∧ sys' = sys.set i t := by
  unfold stepEngine at h
  rcases hs : step sys[i] with t | r | r
  · rw [hs] at h
    exact ⟨t, rfl, by simpa using h.symm⟩
  · rw [hs] at h; cases h
  · rw [hs] at h; cases h

theorem runEngines_cons_next {n : Nat} {i : Fin n} {rest : List (Fin n)} {sys sys' : Vector State n}
    (h : runEngines (i :: rest) sys = .next sys') :
    ∃ t, step sys[i] = .next t ∧ runEngines rest (sys.set i t) = .next sys' := by
  rcases hs : stepEngine i sys with mid | r | r
  · obtain ⟨t, ht, rfl⟩ := stepEngine_next hs
    exact ⟨t, ht, by simpa [runEngines, hs] using h⟩
  · simp [runEngines, hs] at h
  · simp [runEngines, hs] at h

/-- Settles O24: by induction on the schedule; a step of engine `j` is a step of engine `i` when they are the same, and
leaves it alone otherwise. -/
theorem enginesAreIndependent : Obligations.EnginesAreIndependent := by
  intro n schedule sys sys' h i
  induction schedule generalizing sys with
  | nil => cases h; rfl
  | cons j rest ih =>
    obtain ⟨t, hstep, hrun⟩ := runEngines_cons_next h
    have ih := ih (sys.set j t) hrun
    by_cases hji : j = i
    · subst hji
      rw [List.count_cons_self, runSteps_succ hstep]
      simpa using ih
    · have hval : j.val ≠ i.val := fun h => hji (Fin.ext h)
      rw [List.count_cons_of_ne hji]
      simpa [Vector.getElem_set_ne, hval] using ih

/-! ## UPDATE of a payload in two slices -/

theorem addBits_ctx_congr (n : Nat) {s t : State} (h : s.ctx = t.ctx) : (addBits n s).ctx = (addBits n t).ctx := by
  simp only [addBits, h]

/-- The context alone decides the context after a slice. -/
theorem absorbSlice_ctx_congr (len : BitVec 64) (p : List Byte) {s t : State} (h : s.ctx = t.ctx) :
    (absorbSlice len p s).ctx = (absorbSlice len p t).ctx :=
  addBits_ctx_congr _ (absorbAll_ctx_congr p h)

/-- Two slices one after the other are the byte steps of both payloads and the sum of both lengths (44_init_update.md
R226). -/
theorem absorbSlice_absorbSlice (m n : BitVec 64) (p q : List Byte) (s : State) :
    absorbSlice n q (absorbSlice m p s) = addBits (m.toNat + n.toNat) (absorbAll (p ++ q) s) := by
  simp only [absorbSlice]
  rw [absorbAll_addBits, addBits_addBits, absorbAll_append]

/-- An UPDATE in phase ABSORBING is accepted exactly below the counter limit, and then it is its slice
(44_init_update.md R221, R227). -/
theorem exec_update_next_iff {len : BitVec 64} {p : List Byte} {s t : State} (hp : phase s.ctx = .absorbing) :
    exec (.update len p) s = .next t ↔
      s.ctx.bitCount.toNat + 8 * len.toNat < 2 ^ s.ctx.variant.counterBits ∧
        t = respond .ok [] (absorbSlice len p s) := by
  constructor
  · exact fun h => (exec_update_next hp h).symm
  · rintro ⟨hl, rfl⟩
    exact exec_update_accepted hp hl

theorem absorbSlice_phase (len : BitVec 64) (p : List Byte) {s : State} (hp : phase s.ctx = .absorbing) :
    phase (absorbSlice len p s).ctx = .absorbing := by
  simpa [phase_absorbing] using hp

/-- Two UPDATEs one after the other are accepted exactly when the sum of their lengths is below the counter limit, and then
they are their two slices. -/
theorem exec_two_updates_iff {m n : BitVec 64} {p q : List Byte} {s : State} (hp : phase s.ctx = .absorbing)
    (c : Context) :
    (∃ t u, exec (.update m p) s = .next t ∧ exec (.update n q) t = .next u ∧ u.ctx = c) ↔
      s.ctx.bitCount.toNat + 8 * (m.toNat + n.toNat) < 2 ^ s.ctx.variant.counterBits ∧
        (absorbSlice n q (absorbSlice m p s)).ctx = c := by
  have hphase := absorbSlice_phase m p hp
  have hcount (h : s.ctx.bitCount.toNat + 8 * m.toNat < 2 ^ s.ctx.variant.counterBits) :
      (absorbSlice m p s).ctx.bitCount.toNat = s.ctx.bitCount.toNat + 8 * m.toNat := by
    rw [absorbSlice_bitCount, counter_fits, Nat.mod_eq_of_lt h]
  constructor
  · rintro ⟨t, u, ht, hu, rfl⟩
    obtain ⟨hm, rfl⟩ := (exec_update_next_iff hp).mp ht
    obtain ⟨hn, rfl⟩ := (exec_update_next_iff (s := respond .ok [] (absorbSlice m p s)) hphase).mp hu
    rw [respond_ctx, hcount hm, absorbSlice_variant] at hn
    exact ⟨by omega, absorbSlice_ctx_congr n q rfl⟩
  · rintro ⟨hl, rfl⟩
    have hm : s.ctx.bitCount.toNat + 8 * m.toNat < 2 ^ s.ctx.variant.counterBits := by omega
    refine ⟨_, _, exec_update_accepted hp hm, exec_update_accepted hphase ?_, absorbSlice_ctx_congr n q rfl⟩
    rw [respond_ctx, hcount hm, absorbSlice_variant]
    omega

/-- Settles O42: both sides are accepted exactly when the sum of the lengths is below the counter limit, and both are the
byte steps of `p ++ q` and one addition to the counter. -/
theorem twoUpdatesAreOneUpdate : Obligations.TwoUpdatesAreOneUpdate := by
  constructor
  · intro len p s t hp he
    rw [(exec_update_next hp he).1]
    rfl
  · intro p q s hp hlen c
    have hpq : (BitVec.ofNat 64 (p ++ q).length).toNat
        = (BitVec.ofNat 64 p.length).toNat + (BitVec.ofNat 64 q.length).toNat := by
      simp only [BitVec.toNat_ofNat, List.length_append]
      omega
    simp only [updateOf]
    rw [exec_two_updates_iff hp, absorbSlice_absorbSlice, ← hpq]
    constructor
    · rintro ⟨hl, hc⟩
      exact ⟨_, exec_update_accepted hp hl, hc⟩
    · rintro ⟨w, hw, hc⟩
      obtain ⟨hl, rfl⟩ := (exec_update_next_iff hp).mp hw
      exact ⟨hl, hc⟩

end Sys2Proof.Machine
end

section
/-!
PROOFS, family 30_encoding.md (O11 to O17, O21): the decoder and the encoder as inverses, the frames that are no command, the
response of a transaction, and when a step is refused.
-/

namespace Sys2Proof

/-! ## UPDATE's operands -/

/-- The length operand and the bytes after it are the whole sequence: no bit of the eight bytes is dropped (R106). -/
theorem lengthOperand_append_drop {s : List Byte} (h : 8 ≤ s.length) :
    beBytes (beWord 64 s 0).toNat 8 ++ s.drop 8 = s := by
  have hlen : (s.take 8).length = 8 := List.length_take_of_le h
  have hval : (beWord 64 s 0).toNat = beNat (s.take 8) := by
    have hlt := beNat_lt (s.take 8)
    rw [hlen] at hlt
    exact Nat.mod_eq_of_lt hlt
  have hbytes := beBytes_beNat (s.take 8)
  rw [hlen] at hbytes
  rw [hval, hbytes, List.take_append_drop]

theorem decodeUpdate_framed {body : List Byte}
    (h : 8 ≤ body.length ∧ body.length - 8 = (beWord 64 body 0).toNat) :
    decodeUpdate body = .ok (.update (beWord 64 body 0) (body.drop 8)) :=
  if_pos h

theorem decodeUpdate_misframed {body : List Byte}
    (h : ¬ (8 ≤ body.length ∧ body.length - 8 = (beWord 64 body 0).toNat)) :
    decodeUpdate body = .error .malformedFrame :=
  if_neg h

theorem decodeUpdate_operands {len : BitVec 64} {p : List Byte} (h : p.length = len.toNat) :
    decodeUpdate (beBytes len.toNat 8 ++ p) = .ok (.update len p) := by
  have hdrop : (beBytes len.toNat 8 ++ p).drop 8 = p := List.drop_left' (beBytes_length _ _)
  rw [decodeUpdate_framed (by simp [beWord_lengthOperand, h]), beWord_lengthOperand, hdrop]

theorem encode_of_decodeUpdate {body : List Byte} {i : Instr} (h : decodeUpdate body = .ok i) :
    i.WellFormed ∧ encode i = 0x20#8 :: body := by
  by_cases hf : 8 ≤ body.length ∧ body.length - 8 = (beWord 64 body 0).toNat
  · rw [decodeUpdate_framed hf, Except.ok.injEq] at h
    obtain ⟨h8, hlen⟩ := hf
    subst h
    exact ⟨by simp [Instr.WellFormed, Instr.wellFormed, hlen], congrArg _ (lengthOperand_append_drop h8)⟩
  · rw [decodeUpdate_misframed hf] at h
    cases h

theorem decodeUpdate_ne_illegalCommand (body : List Byte) : decodeUpdate body ≠ .error .illegalCommand := by
  by_cases hf : 8 ≤ body.length ∧ body.length - 8 = (beWord 64 body 0).toNat
  · simp [decodeUpdate_framed hf]
  · simp [decodeUpdate_misframed hf]

/-! ## The decoder and the encoder -/

theorem decodeFrame_update (body : List Byte) : decodeFrame (0x20#8 :: body) = decodeUpdate body := by
  simp [decodeFrame_cons]

theorem decodeFrame_encode {i : Instr} (h : i.WellFormed) : decodeFrame (encode i) = .ok i := by
  cases i with
  | init v => cases v <;> rfl
  | update len p => exact (decodeFrame_update _).trans (decodeUpdate_operands (Machine.length_of_update_wellFormed h))
  | finalize => rfl

theorem encode_of_decodeFrame {f : Frame} {i : Instr} (h : decodeFrame f = .ok i) : i.WellFormed ∧ encode i = f := by
  cases f with
  | nil => cases h
  | cons cmd body =>
    rw [decodeFrame_cons] at h
    split_ifs at h with h10 hb h11 hb h20 h30 hb
    · cases h; subst h10 hb; exact ⟨rfl, rfl⟩
    · cases h; subst h11 hb; exact ⟨rfl, rfl⟩
    · subst h20; exact encode_of_decodeUpdate h
    · cases h; subst h30 hb; exact ⟨rfl, rfl⟩

/-- The opcode map leaves out every byte but four (R102, R110). -/
theorem decodeOpcode_none_iff {cmd : Byte} :
    decodeOpcode cmd = none ↔ ¬ (cmd = 0x10#8 ∨ cmd = 0x11#8 ∨ cmd = 0x20#8 ∨ cmd = 0x30#8) := by
  rw [decodeOpcode_table]
  split_ifs <;> simp [*]

/-- The command byte alone makes a frame illegal: behind a legal one the frame decodes or is malformed (R107, R110). -/
theorem decodeFrame_illegal_iff {cmd : Byte} {body : List Byte} :
    decodeFrame (cmd :: body) = .error .illegalCommand ↔ decodeOpcode cmd = none := by
  rcases hop : decodeOpcode cmd with _ | v | _ | _
  · simp [decodeFrame, hop]
  · by_cases hb : body = [] <;> simp [decodeFrame, hop, hb]
  · simp [decodeFrame, hop, decodeUpdate_ne_illegalCommand]
  · by_cases hb : body = [] <;> simp [decodeFrame, hop, hb]

/-- Settles O12: UPDATE's length operand reads back from its eight bytes; the other frames are one byte each. -/
theorem decodeOfEncodeIsCommand : Obligations.DecodeOfEncodeIsCommand := fun _ => decodeFrame_encode

/-- Settles O13: the four legal command bytes case by case; UPDATE's length operand is its eight bytes whole. -/
theorem encodeOfDecodeIsFrame : Obligations.EncodeOfDecodeIsFrame := fun _ _ => encode_of_decodeFrame

/-- Settles O11: each frame is the encoding of a well-formed command, so O12's lemma reads it back. -/
theorem exampleFramesDecode : Obligations.ExampleFramesDecode :=
  ⟨decodeFrame_encode (i := .init .sha256) rfl, decodeFrame_encode (i := .init .sha512) rfl,
    decodeFrame_encode (i := .update 3 [0x61#8, 0x62#8, 0x63#8]) rfl, decodeFrame_encode (i := .update 0 []) rfl,
    decodeFrame_encode (i := .finalize) rfl⟩

end Sys2Proof

namespace Sys2Proof.Machine

/-! ## Frames that are no command -/

theorem runFrame_malformed {f : Frame} (hd : decodeFrame f = .error .malformedFrame) (s : State) :
    runFrame f s = .refused .malformedFrame := by
  simp only [runFrame, hd]

/-- Settles O14: behind the command byte the operands start at byte 0, where `decodeUpdate` reads them. -/
theorem updateFrameOperands : Obligations.UpdateFrameOperands := by
  intro f hf
  obtain ⟨body, rfl⟩ : ∃ body, f = 0x20#8 :: body := List.head?_eq_some_iff.mp hf
  have hword : beWord 64 (0x20#8 :: body) 1 = beWord 64 body 0 := rfl
  rw [hword, decodeFrame_update, List.length_cons, List.drop_succ_cons]
  constructor
  · intro h9 hlen
    have hframed : 8 ≤ body.length ∧ body.length - 8 = (beWord 64 body 0).toNat := by omega
    exact ⟨decodeUpdate_framed hframed, by rw [List.length_drop]; exact hframed.2⟩
  · intro h s rest hin
    have hmis : ¬ (8 ≤ body.length ∧ body.length - 8 = (beWord 64 body 0).toNat) := by omega
    rw [step_with_input hin]
    exact runFrame_malformed ((decodeFrame_update body).trans (decodeUpdate_misframed hmis)) _

/-- Settles O15: 252 of the 256 bytes by counting, and on each of them the opcode map answers nothing. -/
theorem illegalCommandBytes : Obligations.IllegalCommandBytes := by
  refine ⟨by decide +kernel, fun cmd body => ⟨decodeFrame_illegal_iff.trans decodeOpcode_none_iff, ?_⟩⟩
  intro hcmd s rest hin
  have hd := decodeFrame_illegal_iff (body := body).mpr (decodeOpcode_none_iff.mpr hcmd)
  rw [step_with_input hin]
  exact runFrame_illegal hd _

/-! ## The response of a transaction -/

/-- The response of a command its guard stops (30_encoding.md R108, R109). -/
theorem responseFrame_of_guardStatus {c : Context} {e : Status} (h : guardStatus c = some e) :
    responseFrame e [] = [0x01#8] ∨ responseFrame e [] = [0x02#8] := by
  obtain ⟨rfl, -⟩ | ⟨rfl, -, -⟩ := guardStatus_some h
  · exact .inr rfl
  · exact .inl rfl

/-- The responses of UPDATE: OK or its guard's error, each a status byte alone (R109). -/
theorem exec_update_response {len : BitVec 64} {p : List Byte} {s t : State} (h : exec (.update len p) s = .next t) :
    ∃ r, t.responses = s.responses ++ [r] ∧ (r = [0x00#8] ∨ r = [0x01#8] ∨ r = [0x02#8]) := by
  obtain ⟨e, hg, rfl⟩ | ⟨-, rfl⟩ := exec_update_cases h
  · exact ⟨_, rfl, .inr (responseFrame_of_guardStatus hg)⟩
  · exact ⟨responseFrame .ok [], by rw [respond_responses, absorbSlice_responses], .inl rfl⟩

/-- The responses of FINALIZE: its guard's error alone, or OK and the digest (R109, 45_finalize.md R255). -/
theorem exec_finalize_response {s t : State} (h : exec .finalize s = .next t) :
    ∃ r, t.responses = s.responses ++ [r] ∧ (r = [0x01#8] ∨ r = [0x02#8] ∨
      (r = 0x00#8 :: t.ctx.hash.bytes ∧ t.ctx.hash.bytes.length = s.ctx.variant.digestBytes)) := by
  obtain ⟨e, hg, rfl⟩ | ⟨-, rfl⟩ := exec_finalize_cases h
  · obtain hr | hr := responseFrame_of_guardStatus hg
    · exact ⟨_, rfl, .inl hr⟩
    · exact ⟨_, rfl, .inr (.inl hr)⟩
  · have hv : (padMessage s).ctx.hash.variant = s.ctx.variant := padMessage_variant s
    exact ⟨responseFrame .ok (padMessage s).ctx.hash.bytes, by rw [emitDigest_responses, padMessage_responses],
      .inr (.inr ⟨rfl, by rw [emitDigest_hash, hashBytes_length, hv]⟩)⟩

/-- Settles O16: an illegal command byte, or a decoded command, with the responses of each command. -/
theorem responseFrames : Obligations.ResponseFrames := by
  intro f s t h
  obtain ⟨hd, rfl⟩ | ⟨i, hd, he⟩ := runFrame_next_cases h
  · rw [hd]; exact ⟨_, rfl, rfl⟩
  · rw [hd]
    cases i with
    | init v => rw [exec_init_next he]; exact ⟨_, rfl, rfl⟩
    | update len p => exact exec_update_response he
    | finalize => exact exec_finalize_response he

/-! ## When a command, a transaction and a step are refused -/

/-- Only UPDATE refuses, and only at the counter limit (44_init_update.md R227). -/
theorem exec_refused_iff {i : Instr} {s : State} {r : Refusal} : exec i s = .refused r ↔
    ∃ len p, i = .update len p ∧ phase s.ctx = .absorbing ∧
      2 ^ s.ctx.variant.counterBits ≤ s.ctx.bitCount.toNat + 8 * len.toNat ∧ r = .counterLimit := by
  constructor
  · intro h
    cases i with
    | init v => cases h
    | update len p =>
      rcases hg : guardStatus s.ctx with _ | e
      · have hp : phase s.ctx = .absorbing := phase_absorbing.mpr (guardStatus_none.mp hg)
        by_cases hl : s.ctx.bitCount.toNat + 8 * len.toNat < 2 ^ s.ctx.variant.counterBits
        · rw [exec_update_accepted hp hl] at h; cases h
        · have hl := Nat.le_of_not_lt hl
          rw [exec_update_refused hp hl] at h
          cases h
          exact ⟨len, p, rfl, hp, hl, rfl⟩
      · rw [exec_update_raises hg] at h; cases h
    | finalize =>
      rcases hg : guardStatus s.ctx with _ | e
      · rw [exec_finalize_accepted (phase_absorbing.mpr (guardStatus_none.mp hg))] at h; cases h
      · rw [exec_finalize_raises hg] at h; cases h
  · rintro ⟨len, p, rfl, hp, hl, rfl⟩
    exact exec_update_refused hp hl

theorem runFrame_refused_iff {f : Frame} {s : State} {r : Refusal} : runFrame f s = .refused r ↔
    (decodeFrame f = .error .malformedFrame ∧ r = .malformedFrame) ∨
    (∃ i, decodeFrame f = .ok i ∧ exec i s = .refused r) := by
  rcases hd : decodeFrame f with (_ | _) | i
  · simp [runFrame_illegal hd]
  · simp [runFrame_malformed hd, eq_comm]
  · simp [runFrame_decoded hd]

/-- A step refuses only what its frame's transaction refuses: holding the state and a reset never do. -/
theorem step_refused_iff {s : State} {r : Refusal} : step s = .refused r ↔
    ∃ f rest, s.inputs = .command f :: rest ∧ runFrame f { s with inputs := rest } = .refused r := by
  rcases hin : s.inputs with _ | ⟨x, rest⟩
  · simp [step_without_input hin]
  · rw [step_with_input hin]
    cases x <;> simp [runInput]

/-- Settles O21: the refusals of a step are those of its frame's transaction, and a command's is UPDATE's. -/
theorem stepRefusedExactlyWhen : Obligations.StepRefusedExactlyWhen := by
  intro s r
  rw [step_refused_iff]
  refine exists_congr fun f => exists_congr fun rest => and_congr_right fun _ => ?_
  rw [runFrame_refused_iff]
  refine or_congr_right ⟨?_, ?_⟩
  · rintro ⟨i, hd, he⟩
    obtain ⟨len, p, rfl, hlimit⟩ := exec_refused_iff.mp he
    exact ⟨len, p, hd, hlimit⟩
  · rintro ⟨len, p, hd, hlimit⟩
    exact ⟨_, hd, exec_refused_iff.mpr ⟨len, p, rfl, hlimit⟩⟩

/-! ## The written command list -/

/-- Settles O17: the written list is assembled by evaluation, and HASH is its three commands by definition. -/
theorem assemblerExamples : Obligations.AssemblerExamples :=
  ⟨rfl, fun _ _ => rfl⟩

end Sys2Proof.Machine
end

section
/-!
PROOFS, family 40_functions.md (O3, O4, O5): each word operation and logical function said once as the value of a bit, or of
the number; a function made of others by exclusive or follows bit by bit.
-/

namespace Sys2Proof

/-! ## The word primitives -/

theorem toNat_foldl_add {w : Nat} (xs : List (BitVec w)) (x : BitVec w) :
    (xs.foldl (fun acc y => acc + y) x).toNat = (x.toNat + (xs.map BitVec.toNat).sum) % 2 ^ w := by
  induction xs generalizing x with
  | nil => exact (Nat.mod_eq_of_lt x.isLt).symm
  | cons y ys ih => simp [ih, Nat.add_assoc]

theorem toNat_shr {w : Nat} (x : BitVec w) (n : Nat) : (shr x n).toNat = x.toNat / 2 ^ n := by
  rw [shr, BitVec.toNat_ushiftRight, Nat.shiftRight_eq_div_pow]

/-- The bit of SHR: the operand's bit `n` places up, and 0 where that is past the top. -/
theorem getLsbD_shr {w : Nat} (x : BitVec w) (n i : Nat) :
    (shr x n).getLsbD i = (decide (i + n < w) && x.getLsbD (i + n)) := by
  rw [shr, BitVec.getLsbD_ushiftRight, Nat.add_comm n i]
  by_cases h : i + n < w
  · simp [h]
  · simp [h, Nat.le_of_not_lt h]

/-- The bit of ROTR: below bit `w - n` it comes from the right shift, from there on from the left shift. -/
theorem getLsbD_rotr {w : Nat} (x : BitVec w) {n i : Nat} (hn : n < w) (hi : i < w) :
    (rotr x n).getLsbD i = x.getLsbD ((i + n) % w) := by
  rw [rotr, BitVec.getLsbD_or, BitVec.getLsbD_ushiftRight, BitVec.getLsbD_shiftLeft, Nat.add_comm n i]
  rcases Nat.lt_or_ge (i + n) w with h | h
  · have hlow : i < w - n := by omega
    simp [Nat.mod_eq_of_lt h, hlow]
  · have hwrap : (i + n) % w = i - (w - n) := by
      rw [Nat.mod_eq_sub_mod h, Nat.mod_eq_of_lt (by omega)]
      omega
    have hhigh : ¬ i < w - n := by omega
    simp [hwrap, hhigh, hi, BitVec.getLsbD_of_ge x _ h]

/-- Settles O3: the sum by induction on the words, ROTR by its two shifts, SHR as a division. -/
theorem addRotateShiftWords : Obligations.AddRotateShiftWords :=
  ⟨fun _ x xs => toNat_foldl_add xs x,
    fun _ x n _ hn => ⟨fun _ hi => getLsbD_rotr x hn hi, toNat_shr x n⟩⟩

/-! ## The sigma functions -/

theorem getLsbD_rotr_xor_rotr_xor_rotr {w : Nat} (x : BitVec w) {a b c i : Nat} (ha : a < w) (hb : b < w) (hc : c < w)
    (hi : i < w) : (rotr x a ^^^ rotr x b ^^^ rotr x c).getLsbD i
      = (x.getLsbD ((i + a) % w) ^^ x.getLsbD ((i + b) % w) ^^ x.getLsbD ((i + c) % w)) := by
  rw [BitVec.getLsbD_xor, BitVec.getLsbD_xor, getLsbD_rotr x ha hi, getLsbD_rotr x hb hi, getLsbD_rotr x hc hi]

theorem getLsbD_rotr_xor_rotr_xor_shr {w : Nat} (x : BitVec w) {a b i : Nat} (c : Nat) (ha : a < w) (hb : b < w)
    (hi : i < w) : (rotr x a ^^^ rotr x b ^^^ shr x c).getLsbD i
      = (x.getLsbD ((i + a) % w) ^^ x.getLsbD ((i + b) % w) ^^ (decide (i + c < w) && x.getLsbD (i + c))) := by
  rw [BitVec.getLsbD_xor, BitVec.getLsbD_xor, getLsbD_rotr x ha hi, getLsbD_rotr x hb hi, getLsbD_shr]

/-- Settles O5: each Σ is three rotations and each σ two rotations and a shift, at amounts below the width. -/
theorem sigmaFunctionsBitwise : Obligations.SigmaFunctionsBitwise := by
  constructor <;> intro x i hi
  · exact ⟨getLsbD_rotr_xor_rotr_xor_rotr x (by decide) (by decide) (by decide) hi,
      getLsbD_rotr_xor_rotr_xor_rotr x (by decide) (by decide) (by decide) hi,
      getLsbD_rotr_xor_rotr_xor_shr x 3 (by decide) (by decide) hi,
      getLsbD_rotr_xor_rotr_xor_shr x 10 (by decide) (by decide) hi⟩
  · exact ⟨getLsbD_rotr_xor_rotr_xor_rotr x (by decide) (by decide) (by decide) hi,
      getLsbD_rotr_xor_rotr_xor_rotr x (by decide) (by decide) (by decide) hi,
      getLsbD_rotr_xor_rotr_xor_shr x 7 (by decide) (by decide) hi,
      getLsbD_rotr_xor_rotr_xor_shr x 6 (by decide) (by decide) hi⟩

/-! ## Choose and majority -/

theorem getLsbD_ch {w : Nat} (x y z : BitVec w) {i : Nat} (hi : i < w) :
    (ch x y z).getLsbD i = if x.getLsbD i then y.getLsbD i else z.getLsbD i := by
  rw [ch, BitVec.getLsbD_xor, BitVec.getLsbD_and, BitVec.getLsbD_and, BitVec.getLsbD_not, decide_eq_true hi]
  cases x.getLsbD i <;> simp

/-- Of three bits, the exclusive or of the pairwise conjunctions is the majority. -/
theorem xor_and_pairs_eq_majority (a b c : Bool) :
    (((a && b) ^^ (a && c)) ^^ (b && c)) = decide (2 ≤ a.toNat + b.toNat + c.toNat) := by
  revert a b c
  decide

theorem getLsbD_maj {w : Nat} (x y z : BitVec w) (i : Nat) : (maj x y z).getLsbD i
    = decide (2 ≤ (x.getLsbD i).toNat + (y.getLsbD i).toNat + (z.getLsbD i).toNat) := by
  simp only [maj, BitVec.getLsbD_xor, BitVec.getLsbD_and, xor_and_pairs_eq_majority]

/-- Settles O4: Ch by the bit of `x`, Maj by the truth table of its three bits. -/
theorem chooseAndMajorityBitwise : Obligations.ChooseAndMajorityBitwise :=
  fun _ x y z i hi => ⟨getLsbD_ch x y z hi, getLsbD_maj x y z i⟩

end Sys2Proof
end

section
/-!
PROOFS, family 41_constants.md (O6): the primes up to 409 by trial division, the floor root as Mathlib's `Nat.nthRoot`, and
each table as the list of its primes' root words, checked entry by entry in the kernel.
-/

namespace Sys2Proof

/-! ## The primes and their root words -/

/-- Below 21², the divisors below 21 decide primality. -/
theorem prime_iff_trial_division {q : Nat} (hq : q < 21 ^ 2) : q.Prime ↔ 2 ≤ q ∧ ∀ d < 21, d ∣ q → d = 1 ∨ d = q := by
  constructor
  · intro hp
    exact ⟨hp.two_le, fun d _ hdvd => hp.eq_one_or_self_of_dvd d hdvd⟩
  · rintro ⟨htwo, hdvd⟩
    refine Nat.prime_def_le_sqrt.2 ⟨htwo, fun d hd hle h => ?_⟩
    have hsqrt : q.sqrt < 21 := Nat.sqrt_lt'.2 hq
    have hself : q.sqrt < q := Nat.sqrt_lt_self htwo
    have := hdvd d (by omega) h
    omega

/-- The primes up to 409, in increasing order, found by trial division: the first 80 primes (41_constants.md R175). -/
def firstPrimes : List Nat :=
  (List.range 410).filter fun q => 2 ≤ q ∧ ∀ d : Nat, d < 21 → d ∣ q → d = 1 ∨ d = q

theorem mem_firstPrimes (q : Nat) : q ∈ firstPrimes ↔ q.Prime ∧ q ≤ 409 := by
  rw [firstPrimes, List.mem_filter, List.mem_range, decide_eq_true_iff, and_comm, Nat.lt_succ_iff]
  exact and_congr_left fun hq => (prime_iff_trial_division (by omega)).symm

theorem pairwise_lt_firstPrimes : firstPrimes.Pairwise (· < ·) :=
  List.pairwise_lt_range.filter _

theorem length_firstPrimes : firstPrimes.length = 80 := by decide +kernel

/-- The first `w` bits of the fractional part of the `k`-th root of `p`: `floor(p^(1/k) * 2^w) mod 2^w`
(41_constants.md R175). -/
def rootWord (k w p : Nat) : Nat := Nat.nthRoot k (p * 2 ^ (k * w)) % 2 ^ w

/-- A root word is the remainder of an exact floor root. -/
theorem exists_floor_root_of_eq_rootWord {k w p x : Nat} (hk : k ≠ 0) (hx : x = rootWord k w p) :
    ∃ r : Nat, r ^ k ≤ p * 2 ^ (k * w) ∧ p * 2 ^ (k * w) < (r + 1) ^ k ∧ x = r % 2 ^ w :=
  ⟨_, Nat.pow_nthRoot_le_iff.2 (.inl hk), Nat.lt_pow_nthRoot_add_one hk _, hx⟩

/-! ## The tables -/

theorem iv256_eq_rootWords : iv256.toList.map BitVec.toNat = (firstPrimes.take 8).map (rootWord 2 32) := by
  decide +kernel

theorem iv512_eq_rootWords : iv512.toList.map BitVec.toNat = (firstPrimes.take 8).map (rootWord 2 64) := by
  decide +kernel

theorem k256_eq_rootWords : k256.map BitVec.toNat = (firstPrimes.take 64).map (rootWord 3 32) := by
  decide +kernel

theorem k512_eq_rootWords : k512.map BitVec.toNat = (firstPrimes.take 80).map (rootWord 3 64) := by
  decide +kernel

/-- A table that lists the root words of the first `n` primes has `n` entries. -/
theorem length_of_eq_rootWords {k w n : Nat} {table : List (BitVec w)} (hn : n ≤ 80)
    (h : table.map BitVec.toNat = (firstPrimes.take n).map (rootWord k w)) : table.length = n := by
  simpa [length_firstPrimes, hn] using congrArg List.length h

/-- Entry `i` of such a table comes from the exact floor root of prime `i`. -/
theorem exists_floor_root_getD_of_eq_rootWords {k w n i : Nat} {table : List (BitVec w)} (hn : n ≤ 80)
    (h : table.map BitVec.toNat = (firstPrimes.take n).map (rootWord k w)) (hk : k ≠ 0) (hi : i < n) :
    ∃ r : Nat, r ^ k ≤ firstPrimes.getD i 0 * 2 ^ (k * w) ∧ firstPrimes.getD i 0 * 2 ^ (k * w) < (r + 1) ^ k ∧
      (table.getD i 0).toNat = r % 2 ^ w := by
  apply exists_floor_root_of_eq_rootWord hk
  have htable : i < table.length := by rwa [length_of_eq_rootWords hn h]
  have hprimes : i < firstPrimes.length := by rw [length_firstPrimes]; omega
  have hentry := congrArg (·[i]?) h
  simpa [htable, hprimes, hi] using hentry

/-- Settles O6: the tables are the lists of root words, and a root word is the remainder of an exact floor root. -/
theorem constantsAreRootsOfPrimes : Obligations.ConstantsAreRootsOfPrimes :=
  ⟨firstPrimes, length_firstPrimes, pairwise_lt_firstPrimes, mem_firstPrimes,
    fun _ => exists_floor_root_getD_of_eq_rootWords (by decide) iv256_eq_rootWords (by decide),
    fun _ => exists_floor_root_getD_of_eq_rootWords (by decide) iv512_eq_rootWords (by decide),
    ⟨length_of_eq_rootWords (by decide) k256_eq_rootWords,
      fun _ => exists_floor_root_getD_of_eq_rootWords (by decide) k256_eq_rootWords (by decide)⟩,
    length_of_eq_rootWords (by decide) k512_eq_rootWords,
    fun _ => exists_floor_root_getD_of_eq_rootWords (by decide) k512_eq_rootWords (by decide)⟩

end Sys2Proof
end

section
/-!
PROOFS, family 42_compress_sha256.md (O7, O8, O10): the schedule's recurrence and the rounds said once for the functions and
the width of either variant, and the windowed datapath as a simulation of the rounds, round by round.
-/

namespace Sys2Proof
variable {w : Nat}

/-! ## The message schedule -/

/-- The recurrence at `t` over words named by their index, wherever they are kept (R181, R201). -/
def recurrenceWord (p : RoundFns w) (word : Nat → BitVec w) (t : Nat) : BitVec w :=
  p.gamma1 (word (t - 2)) + word (t - 7) + p.gamma0 (word (t - 15)) + word (t - 16)

theorem nextWord_eq_recurrenceWord (p : RoundFns w) (ws : List (BitVec w)) :
    nextWord p ws = recurrenceWord p (ws.getD · 0) ws.length := rfl

/-- The recurrence reads among the 16 words before `t` alone. -/
theorem recurrenceWord_congr (p : RoundFns w) {word word' : Nat → BitVec w} {t : Nat} (ht : 16 ≤ t)
    (h : ∀ j, t ≤ j + 16 → j < t → word j = word' j) : recurrenceWord p word t = recurrenceWord p word' t := by
  simp only [recurrenceWord]
  rw [h (t - 2) (by omega) (by omega), h (t - 7) (by omega) (by omega), h (t - 15) (by omega) (by omega),
    h (t - 16) (by omega) (by omega)]

theorem length_expandSchedule (p : RoundFns w) (n : Nat) (ws : List (BitVec w)) :
    (expandSchedule p n ws).length = ws.length + n := by
  induction n generalizing ws with
  | zero => rfl
  | succ n ih => rw [expandSchedule, ih, List.length_append, List.length_singleton, Nat.add_right_comm, Nat.add_assoc]

/-- The expansion only appends. -/
theorem getD_expandSchedule_of_lt (p : RoundFns w) (n : Nat) {ws : List (BitVec w)} {t : Nat} (ht : t < ws.length) :
    (expandSchedule p n ws).getD t 0 = ws.getD t 0 := by
  induction n generalizing ws with
  | zero => rfl
  | succ n ih =>
    rw [expandSchedule, ih (by rw [List.length_append]; omega), List.getD_append _ _ _ _ ht]

/-- Every appended word follows the recurrence over the expanded list itself. -/
theorem getD_expandSchedule_of_ge (p : RoundFns w) {n : Nat} {ws : List (BitVec w)} {t : Nat} (hws : 16 ≤ ws.length)
    (hge : ws.length ≤ t) (hlt : t < ws.length + n) :
    (expandSchedule p n ws).getD t 0 = recurrenceWord p ((expandSchedule p n ws).getD · 0) t := by
  induction n generalizing ws with
  | zero => omega
  | succ n ih =>
    have hlen : (ws ++ [nextWord p ws]).length = ws.length + 1 := List.length_append
    rcases Nat.eq_or_lt_of_le hge with rfl | hgt
    · have hnext : (expandSchedule p (n + 1) ws).getD ws.length 0 = nextWord p ws := by
        rw [expandSchedule, getD_expandSchedule_of_lt p n (by omega)]
        simp
      rw [hnext, nextWord_eq_recurrenceWord]
      exact recurrenceWord_congr p hws fun j _ hj => (getD_expandSchedule_of_lt p (n + 1) hj).symm
    · exact ih (by omega) (by omega) (by omega)

theorem length_parseBlock (w : Nat) (m : List Byte) : (parseBlock w m).length = 16 := by
  simp [parseBlock]

theorem length_messageSchedule {p : RoundFns w} (hp : 16 ≤ p.rounds) (m : List Byte) :
    (messageSchedule p m).length = p.rounds := by
  rw [messageSchedule, length_expandSchedule, length_parseBlock]
  omega

/-- The first 16 words are the block parse (R180, R200). -/
theorem getD_messageSchedule_of_lt (p : RoundFns w) (m : List Byte) {t : Nat} (ht : t < 16) :
    (messageSchedule p m).getD t 0 = beWord w m (w / 8 * t) := by
  rw [messageSchedule, getD_expandSchedule_of_lt p _ (by rwa [length_parseBlock])]
  simp [parseBlock, ht]

/-- The later words follow the recurrence (R181, R201). -/
theorem getD_messageSchedule_of_ge (p : RoundFns w) (m : List Byte) {t : Nat} (hge : 16 ≤ t) (hlt : t < p.rounds) :
    (messageSchedule p m).getD t 0 = recurrenceWord p ((messageSchedule p m).getD · 0) t := by
  have hlen := length_parseBlock w m
  exact getD_expandSchedule_of_ge p (by omega) (by omega) (by omega)

/-- Settles O7: the expansion appends, by induction on the number of words, and each appended word is the recurrence's. -/
theorem scheduleFollowsRecurrence : Obligations.ScheduleFollowsRecurrence :=
  ⟨fun m => ⟨length_messageSchedule (p := fns256) (by decide) m, fun _ => getD_messageSchedule_of_lt fns256 m,
      fun _ => getD_messageSchedule_of_ge fns256 m⟩,
    fun m => ⟨length_messageSchedule (p := fns512) (by decide) m, fun _ => getD_messageSchedule_of_lt fns512 m,
      fun _ => getD_messageSchedule_of_ge fns512 m⟩⟩

/-! ## The rounds -/

/-- Rounds `0..n` are rounds `0..n-1` and then round `n` (R186, R206). -/
theorem runRounds_succ (p : RoundFns w) (ws : List (BitVec w)) (n : Nat) (v : WorkVars w) :
    runRounds p ws (n + 1) v = mixRound p (p.k.getD n 0) (ws.getD n 0) (runRounds p ws n v) := by
  simp only [runRounds, List.range_succ, List.foldl_append, List.foldl_cons, List.foldl_nil]

/-- Settles O8: the working variables before round `t` are those after the first `t` rounds. -/
theorem compressShaTwoFiveSixIsItsRounds : Obligations.CompressShaTwoFiveSixIsItsRounds := fun H m =>
  ⟨fun t => runRounds fns256 (messageSchedule fns256 m) t (loadVars H), rfl,
    fun t _ => runRounds_succ fns256 (messageSchedule fns256 m) t (loadVars H), rfl⟩

/-! ## The 16-word window -/

/-- What the window holds before round `t`: the 16 words before `W[t]`, and in the first rounds `W[0..15]`, each in the slot
of its index modulo 16 (R190, R210). -/
def WindowHolds (ws : List (BitVec w)) (t : Nat) (win : Vector (BitVec w) 16) : Prop :=
  ∀ j, t ≤ j + 16 → j < max t 16 → win.toList.getD (j % 16) 0 = ws.getD j 0

/-- The words from `W[16]` up to but not including `W[n]` come from the recurrence (R181, R201). -/
def FollowsRecurrence (p : RoundFns w) (ws : List (BitVec w)) (n : Nat) : Prop :=
  ∀ t, 16 ≤ t → t < n → ws.getD t 0 = recurrenceWord p (ws.getD · 0) t

theorem windowOf_holds (p : RoundFns w) (m : List Byte) : WindowHolds (messageSchedule p m) 0 (windowOf w m) := by
  intro j _ hj
  have hj : j < 16 := by omega
  rw [getD_messageSchedule_of_lt p m hj, Nat.mod_eq_of_lt hj]
  simp [windowOf, hj]

/-- Storing `W[t]` over `W[t-16]` moves the window on by one word. -/
theorem WindowHolds.store {ws : List (BitVec w)} {t : Nat} {win : Vector (BitVec w) 16} (h : WindowHolds ws t win) :
    WindowHolds ws (t + 1) (win.setIfInBounds (t % 16) (ws.getD t 0)) := by
  intro j hlo hhi
  by_cases hj : j = t
  · subst hj
    have hslot : j % 16 < 16 := Nat.mod_lt _ (by decide)
    simp [hslot]
  · have hslot : t % 16 ≠ j % 16 := by omega
    rw [← h j (by omega) (by omega)]
    simp [hslot]

section
variable {p : RoundFns w} {ws : List (BitVec w)}

/-- A round of the windowed datapath mixes in the schedule's word and stores it. -/
theorem WindowHolds.windowRound_eq {t : Nat} {win : Vector (BitVec w) 16} (h : WindowHolds ws t win)
    (hrec : 16 ≤ t → ws.getD t 0 = recurrenceWord p (ws.getD · 0) t) (v : WorkVars w) :
    windowRound p (win, v) t
      = (win.setIfInBounds (t % 16) (ws.getD t 0), mixRound p (p.k.getD t 0) (ws.getD t 0) v) := by
  have hword : (if t < 16 then win.toList.getD t 0
      else recurrenceWord p (fun j => win.toList.getD (j % 16) 0) t) = ws.getD t 0 := by
    split
    next hlt =>
      have hslot := h t (by omega) (by omega)
      rwa [Nat.mod_eq_of_lt hlt] at hslot
    next hge =>
      have hge : 16 ≤ t := Nat.le_of_not_lt hge
      rw [hrec hge]
      exact recurrenceWord_congr p hge fun j hlo hhi => h j hlo (by omega)
  rw [← hword]
  rfl

/-- The simulation: after `n` rounds the window holds the words round `n` needs, and the working variables are those of the
rounds over the whole schedule. -/
theorem WindowHolds.foldl_windowRound {win : Vector (BitVec w) 16} (h : WindowHolds ws 0 win) (n : Nat)
    (hrec : FollowsRecurrence p ws n) (v : WorkVars w) :
    ∃ win', WindowHolds ws n win' ∧
      (List.range n).foldl (windowRound p) (win, v) = (win', runRounds p ws n v) := by
  induction n with
  | zero => exact ⟨win, h, rfl⟩
  | succ n ih =>
    obtain ⟨win', hwin, hfold⟩ := ih fun t hge hlt => hrec t hge (by omega)
    refine ⟨_, hwin.store, ?_⟩
    rw [List.range_succ, List.foldl_append, hfold, runRounds_succ]
    exact hwin.windowRound_eq (fun hge => hrec n hge (by omega)) _

end

theorem compressWindowed_eq_compressBlock (p : RoundFns w) (H : HashFile w) (m : List Byte) :
    compressWindowed p H m = compressBlock p H m := by
  have hrec : FollowsRecurrence p (messageSchedule p m) p.rounds := fun _ => getD_messageSchedule_of_ge p m
  obtain ⟨win, -, hfold⟩ := (windowOf_holds p m).foldl_windowRound p.rounds hrec (loadVars H)
  rw [compressWindowed, hfold, compressBlock]

/-- Settles O10: the windowed rounds simulate the rounds over the whole schedule, whatever the variant's functions. -/
theorem windowedDatapathReturnsSameValue : Obligations.WindowedDatapathReturnsSameValue :=
  ⟨compressWindowed_eq_compressBlock fns256, compressWindowed_eq_compressBlock fns512⟩

end Sys2Proof
end

section
/-!
PROOFS, family 43_compress_sha512.md (O9): SHA-512 compression as its rounds, by the same rule for one more round as SHA-256.
-/

namespace Sys2Proof

/-- Settles O9: the working variables before round `t` are those after the first `t` rounds, so `runRounds_succ` is R203 to
R205 for round `t`; the loading (R202) and the final addition (R207) are the compressor's own. -/
theorem compressShaFiveOneTwoIsItsRounds : Obligations.CompressShaFiveOneTwoIsItsRounds := by
  intro H m
  refine ⟨fun t => runRounds fns512 (messageSchedule fns512 m) t (loadVars H), ?_, ?_, ?_⟩
  · rfl
  · exact fun t _ => runRounds_succ fns512 (messageSchedule fns512 m) t (loadVars H)
  · rfl

end Sys2Proof
end

section
/-!
PROOFS, family 44_init_update.md (O32, O36 to O41, O43, O44): the fresh context of INIT, the byte step and the slice of an
accepted UPDATE, its refusal and its failures, and a sequence of slices as one run of byte steps.
-/

namespace Sys2Proof.Machine

/-! ## INIT -/

/-- Settles O36: INIT has no guard, and every clause is a field of the fresh context or of the response. -/
theorem initOpensFreshContext : Obligations.InitOpensFreshContext := by
  intro v s
  refine ⟨respond .ok [] { s with ctx := freshContext v s.ctx }, rfl, rfl, rfl, freshContext_variant v s.ctx, ?hash,
    rfl, rfl, rfl, rfl, rfl, rfl⟩
  case hash => cases v <;> rfl

/-! ## The byte step -/

/-- A buffer that is not full has room among the 128 bytes built (10_state.md R35). -/
theorem bufLen_lt_capacity {c : Context} (h : c.bufLen < c.variant.blockBytes) : c.bufLen < 128 :=
  h.trans_le (blockBytes_le c.variant)

/-- The byte that fills the buffer is compressed with the valid bytes before it (44_init_update.md R222). -/
theorem compressBuffer_pushByte_hash (x : Byte) {s : State} (h : s.ctx.bufLen + 1 = s.ctx.variant.blockBytes) :
    (compressBuffer (pushByte x s)).ctx.hash = compressHash s.ctx.hash (bufRead s.ctx s.ctx.bufLen ++ [x]) := by
  have hlt : s.ctx.bufLen < s.ctx.variant.blockBytes := h ▸ Nat.lt_succ_self _
  rw [compressBuffer_hash, pushByte_hash, pushByte_variant, ← h, bufRead_pushByte x (bufLen_lt_capacity hlt)]

/-- Settles O40: the byte step pushes the byte, and compresses exactly when that fills the buffer. -/
theorem absorbByteStep : Obligations.AbsorbByteStep := by
  intro x s hlt
  refine ⟨fun hne => ?_, fun hfull => ?_, absorb_ctxValid x s, absorb_finalized x s, absorb_variant x s,
    absorb_bitCount x s⟩
  · obtain ⟨-, ha⟩ | ⟨he, -⟩ := absorb_cases x s
    · rw [ha]
      exact ⟨rfl, bufRead_pushByte x (bufLen_lt_capacity hlt), rfl⟩
    · exact absurd he (Nat.ne_of_lt hne)
  · obtain ⟨hne, -⟩ | ⟨-, ha⟩ := absorb_cases x s
    · exact absurd hfull hne
    · rw [ha]
      exact ⟨rfl, compressBuffer_pushByte_hash x hfull⟩

/-! ## An accepted UPDATE -/

/-- Settles O38: an accepted UPDATE is its slice, whose byte steps cut the valid bytes and the payload into blocks. -/
theorem updateCompressesItsBlocks : Obligations.UpdateCompressesItsBlocks := by
  intro len p s t hw hp hlt he
  obtain ⟨rfl, -⟩ := exec_update_next hp he
  obtain ⟨hhash, hlen, hrest, hblocks⟩ := absorbAll_spec p s hlt
  have hvalid : (bufRead s.ctx s.ctx.bufLen).length = s.ctx.bufLen :=
    bufRead_length (bufLen_lt_capacity hlt).le
  rw [length_of_update_wellFormed hw] at hlen
  refine ⟨hblocks, ?count, hhash, hlen, hrest⟩
  case count => rw [hblocks, fullBlocks_length, List.length_append, hvalid, length_of_update_wellFormed hw]

/-- Settles O39: the slice writes the buffer by its byte steps alone. -/
theorem updateFrame : Obligations.UpdateFrame := by
  intro len p s t _ hp hlt he
  obtain ⟨rfl, -⟩ := exec_update_next hp he
  exact ⟨absorbAll_buf_elsewhere p s hlt, absorbAll_without_block p s⟩

/-- Settles O37: below the limit the UPDATE is its slice, and the sum needs no reduction modulo `2^C`. -/
theorem updateCompletes : Obligations.UpdateCompletes := by
  intro len p s _ hp hl
  obtain ⟨hvalid, hopen⟩ := phase_absorbing.mp hp
  refine ⟨_, exec_update_accepted hp hl, ?responses, ?bitCount, ?rest⟩
  case responses => rw [respond_responses, absorbSlice_responses]; rfl
  case bitCount => rw [respond_ctx, absorbSlice_bitCount, counter_fits, Nat.mod_eq_of_lt hl]
  case rest => simp [hvalid, hopen]

/-! ## The counter, and the UPDATEs that are not accepted -/

theorem absorbSlice_bitCount_toNat (len : BitVec 64) (p : List Byte) (s : State) :
    (absorbSlice len p s).ctx.bitCount.toNat
      = (s.ctx.bitCount.toNat + 8 * len.toNat) % 2 ^ s.ctx.variant.counterBits := by
  rw [absorbSlice_bitCount, counter_fits]

/-- Settles O44: at the limit the model refuses, and the slice's counter is the modular sum wherever it starts. -/
theorem counterLimitRefused : Obligations.CounterLimitRefused :=
  fun len p s hp hl => ⟨exec_update_refused hp hl, absorbSlice_bitCount_toNat len p s⟩

theorem guardStatus_none_iff_absorbing {c : Context} : guardStatus c = none ↔ phase c = .absorbing :=
  guardStatus_none.trans phase_absorbing.symm

/-- The guard's answers in the other two phases (44_init_update.md R221). -/
theorem guardStatus_outside_absorbing (c : Context) :
    (phase c = .idle → guardStatus c = some .notInitialized) ∧
    (phase c = .finalized → guardStatus c = some .alreadyFinalized) := by
  cases hv : c.ctxValid <;> cases hf : c.finalized <;> simp [phase, guardStatus, hv, hf]

/-- Settles O32: by the command, and for UPDATE by whether its guard passes, which is phase ABSORBING. -/
theorem bitCounterRule : Obligations.BitCounterRule := by
  intro i s t he
  cases i with
  | init v => rw [exec_init_next he]; rfl
  | update len p =>
    obtain ⟨e, hg, rfl⟩ | ⟨hg, rfl⟩ := exec_update_cases he
    · have hp : phase s.ctx ≠ .absorbing := fun h => by simp [guardStatus_none_iff_absorbing.mpr h] at hg
      simp only [if_neg hp, respond_ctx]
    · simp only [if_pos (guardStatus_none_iff_absorbing.mp hg), respond_ctx, absorbSlice_bitCount_toNat]
  | finalize =>
    obtain ⟨e, -, rfl⟩ | ⟨-, rfl⟩ := exec_finalize_cases he
    · rfl
    · exact padMessage_bitCount s

/-- A slice of no bytes leaves the whole state (44_init_update.md R225). -/
theorem absorbSlice_empty {s : State} (h : s.ctx.bitCount.toNat < 2 ^ s.ctx.variant.counterBits) :
    absorbSlice 0 [] s = s :=
  addBits_zero h

/-- Settles O41: accepted, it is the empty slice; in the other two phases the guard answers. -/
theorem emptyUpdateChangesNothing : Obligations.EmptyUpdateChangesNothing := by
  intro s
  obtain ⟨hidle, hfinalized⟩ := guardStatus_outside_absorbing s.ctx
  refine ⟨fun hp hl => ?_, fun hp => exec_update_raises (hidle hp), fun hp => exec_update_raises (hfinalized hp)⟩
  rw [exec_update_accepted hp (by simpa using hl), absorbSlice_empty hl]
  rfl

/-! ## A sequence of slices -/

theorem addBits_counter_lt (n : Nat) (s : State) :
    (addBits n s).ctx.bitCount.toNat < 2 ^ (addBits n s).ctx.variant.counterBits := by
  rw [addBits_bitCount, addBits_variant, counter_fits]
  exact Nat.mod_lt _ (by positivity)

/-- Slices one by one are the byte steps of their concatenation and one addition of its length, in the whole state and also
where the counter wraps (44_init_update.md R226): the byte steps do not look at the counter, and its sums add up. -/
theorem absorbSlices_eq (slices : List (List Byte)) {s : State}
    (hs : s.ctx.bitCount.toNat < 2 ^ s.ctx.variant.counterBits) (hlen : ∀ p ∈ slices, p.length < 2 ^ 64) :
    absorbSlices slices s = addBits slices.flatten.length (absorbAll slices.flatten s) := by
  induction slices generalizing s with
  | nil => exact (addBits_zero hs).symm
  | cons p ps ih =>
    obtain ⟨hp, hps⟩ := List.forall_mem_cons.mp hlen
    have hslice : absorbSlice (BitVec.ofNat 64 p.length) p s = addBits p.length (absorbAll p s) := by
      rw [absorbSlice, BitVec.toNat_ofNat, Nat.mod_eq_of_lt hp]
    calc absorbSlices (p :: ps) s
        = absorbSlices ps (addBits p.length (absorbAll p s)) := by rw [← hslice]; rfl
      _ = addBits ps.flatten.length (absorbAll ps.flatten (addBits p.length (absorbAll p s))) :=
          ih (addBits_counter_lt _ _) hps
      _ = addBits (p :: ps).flatten.length (absorbAll (p :: ps).flatten s) := by
          rw [absorbAll_addBits, addBits_addBits, ← absorbAll_append, ← List.length_append, List.flatten_cons]

/-- Settles O43: the slices and their concatenation leave one and the same state, from which FINALIZE has one outcome. -/
theorem chunkingInvariance : Obligations.ChunkingInvariance := by
  intro slices s hs hlen
  rw [absorbSlices_eq slices hs hlen]
  refine ⟨rfl, fun t u ht hu => ?_⟩
  rw [Host.Outcome.next.inj (ht.symm.trans hu)]

end Sys2Proof.Machine
end

section
/-!
PROOFS, family 45_finalize.md (O46 to O53): the padding of an accepted FINALIZE and its blocks, the end state and the digest
bytes, the digest of a whole message and of a host's sequence, and the path of the padding state machine.
-/

namespace Sys2Proof.Machine

/-! ## The zero bytes and the blocks they fill -/

/-- The mark and `Z` zeros bring the buffer length to `B - L` (45_finalize.md R252). -/
theorem mark_and_zeros_reach_stop (v : Variant) (r : Nat) :
    (r + 1 + zeroCount v r) % v.blockBytes = v.blockBytes - v.lengthBytes := by
  cases v <;> simp only [zeroCount, Variant.blockBytes, Variant.lengthBytes] <;> omega

/-- The mark and `Z` zeros fill one block when the mark is at or beyond `B - L`, and none otherwise. -/
theorem mark_and_zeros_blocks {v : Variant} {r : Nat} (h : r < v.blockBytes) :
    (r + 1 + zeroCount v r) / v.blockBytes = if r < v.blockBytes - v.lengthBytes then 0 else 1 := by
  split_ifs <;> cases v <;> simp only [zeroCount, Variant.blockBytes, Variant.lengthBytes] at * <;> omega

/-- `Z` depends on the message length modulo `B` alone (45_finalize.md R259). -/
theorem zeroCount_mod (v : Variant) (n : Nat) : zeroCount v (n % v.blockBytes) = zeroCount v n := by
  cases v <;> simp only [zeroCount, Variant.blockBytes, Variant.lengthBytes] <;> omega

theorem lengthBytes_lt_blockBytes (v : Variant) : v.lengthBytes < v.blockBytes := by cases v <;> decide

theorem lengthBytes_pos (v : Variant) : 0 < v.lengthBytes := by cases v <;> decide

theorem blocksAbsorbed_length {xs : List Byte} {s : State} (h : s.ctx.bufLen < s.ctx.variant.blockBytes) :
    (blocksAbsorbed xs s).length = (s.ctx.bufLen + xs.length) / s.ctx.variant.blockBytes := by
  obtain ⟨-, -, -, hblocks⟩ := absorbAll_spec xs s h
  rw [hblocks, fullBlocks_length, List.length_append, bufRead_length (bufLen_lt_capacity h).le]

/-- The compressions before the length field (45_finalize.md R252). -/
theorem blocksAbsorbed_mark_and_zeros {s : State} (h : s.ctx.bufLen < s.ctx.variant.blockBytes) :
    (blocksAbsorbed (0x80#8 :: List.replicate (zeroCount s.ctx.variant s.ctx.bufLen) 0x00#8) s).length
      = if s.ctx.bufLen < s.ctx.variant.blockBytes - s.ctx.variant.lengthBytes then 0 else 1 := by
  rw [blocksAbsorbed_length h, ← mark_and_zeros_blocks h]
  simp only [List.length_cons, List.length_replicate]
  congr 1
  omega

/-- Settles O47: the loop is a run of `Z` byte steps, and the blocks it fills are counted by the bytes absorbed. -/
theorem paddingLoopAppendsZeros : Obligations.PaddingLoopAppendsZeros := by
  intro s h
  obtain ⟨-, hzeros, hstop⟩ := padMessage_spec s h
  exact ⟨zeroCount_lt _ _, hzeros, hstop, blocksAbsorbed_mark_and_zeros h⟩

/-! ## The blocks of an accepted FINALIZE -/

/-- A byte sequence is its complete blocks and the partial one. -/
theorem fullBlocks_flatten_append {b : Nat} (hb : 0 < b) (bytes : List Byte) :
    (fullBlocks b bytes).flatten ++ partialBlock b bytes = bytes := by
  induction hn : bytes.length using Nat.strong_induction_on generalizing bytes with
  | _ n ih =>
    by_cases hs : bytes.length < b
    · simp [fullBlocks_short hs, partialBlock_short hs]
    · have hlen : (bytes.take b).length = b := List.length_take_of_le (by omega)
      have ih := ih (bytes.drop b).length (by simp; omega) (bytes.drop b) rfl
      rw [← List.take_append_drop b bytes, fullBlocks_cons hb hlen, partialBlock_cons hb hlen, List.flatten_cons,
        List.append_assoc, ih]

/-- A whole number of blocks leaves no partial block. -/
theorem fullBlocks_flatten {b m : Nat} (hb : 0 < b) {bytes : List Byte} (h : bytes.length = m * b) :
    (fullBlocks b bytes).flatten = bytes := by
  have hpartial : partialBlock b bytes = [] := List.length_eq_zero_iff.mp (by rw [partialBlock_length, h, Nat.mul_mod_left])
  simpa [hpartial] using fullBlocks_flatten_append hb bytes

theorem fullBlocks_getLast? {b m : Nat} (hb : 0 < b) {bytes : List Byte} (h : bytes.length = (m + 1) * b) :
    (fullBlocks b bytes).getLast? = some (bytes.drop (m * b)) := by
  have hlast : (bytes.drop (m * b)).length ≤ b := by rw [List.length_drop, h, Nat.succ_mul]; omega
  simp [fullBlocks, h, Nat.mul_div_cancel _ hb, List.range_succ, List.take_of_length_le hlast]

/-- The valid bytes and the padding make whole blocks: one when the mark leaves room for the length field, else two
(45_finalize.md R254, R262). -/
theorem finalBlocks_length {s : State} (h : s.ctx.bufLen < s.ctx.variant.blockBytes) :
    (bufRead s.ctx s.ctx.bufLen ++ paddingBytes s.ctx).length
      = ((if s.ctx.bufLen < s.ctx.variant.blockBytes - s.ctx.variant.lengthBytes then 0 else 1) + 1)
        * s.ctx.variant.blockBytes := by
  have hstop := mark_and_zeros_reach_stop s.ctx.variant s.ctx.bufLen
  have hblocks := mark_and_zeros_blocks h
  have hsplit := Nat.div_add_mod' (s.ctx.bufLen + 1 + zeroCount s.ctx.variant s.ctx.bufLen) s.ctx.variant.blockBytes
  have hL := lengthBytes_lt_blockBytes s.ctx.variant
  rw [hstop, hblocks] at hsplit
  rw [Nat.add_mul, Nat.one_mul, List.length_append, bufRead_length (bufLen_lt_capacity h).le]
  simp only [paddingBytes, lengthField, List.length_cons, List.length_append, List.length_replicate, beBytes_length]
  omega

theorem padMessage_hash {s : State} (h : s.ctx.bufLen < s.ctx.variant.blockBytes) :
    (padMessage s).ctx.hash = foldBlocks s.ctx.hash
      (fullBlocks s.ctx.variant.blockBytes (bufRead s.ctx s.ctx.bufLen ++ paddingBytes s.ctx)) := by
  obtain ⟨hpad, -⟩ := padMessage_spec s h
  obtain ⟨hhash, -⟩ := absorbAll_spec (paddingBytes s.ctx) s h
  rw [hpad, hhash]

/-- The length field ends the padding (45_finalize.md R253). -/
theorem drop_to_lengthField {c : Context} {pre : List Byte} {n : Nat}
    (h : n + c.variant.lengthBytes = (pre ++ paddingBytes c).length) :
    (pre ++ paddingBytes c).drop n = lengthField c := by
  have hsplit : pre ++ paddingBytes c
      = (pre ++ 0x80#8 :: List.replicate (zeroCount c.variant c.bufLen) 0#8) ++ lengthField c := by simp [paddingBytes]
  rw [hsplit, List.length_append, lengthField, beBytes_length] at h
  rw [hsplit]
  exact List.drop_left' (by omega)

/-- Settles O48: the bytes make a whole number of blocks, so the blocks lose none and the last ends with the length field. -/
theorem finalizeCompressesOneOrTwoBlocks : Obligations.FinalizeCompressesOneOrTwoBlocks := by
  intro s t hp h he
  rw [exec_finalize_accepted hp, Host.Outcome.next.injEq] at he
  subst he
  have hb := blockBytes_pos s.ctx.variant
  have hL := lengthBytes_lt_blockBytes s.ctx.variant
  have hlen := finalBlocks_length h
  refine ⟨?count, fullBlocks_flatten hb hlen, ⟨_, fullBlocks_getLast? hb hlen, ?field⟩, padMessage_hash h⟩
  case count =>
    rw [fullBlocks_length, hlen, Nat.mul_div_cancel _ hb]
    split <;> rfl
  case field =>
    rw [List.drop_drop]
    refine drop_to_lengthField (c := s.ctx) ?_
    rw [hlen, Nat.add_mul, Nat.one_mul]
    omega

/-! ## The end state and the digest bytes -/

/-- FINALIZE leaves phase FINALIZED, where the guard stops UPDATE and FINALIZE (45_finalize.md R256). -/
theorem emitDigest_phase {s : State} (hp : phase s.ctx = .absorbing) :
    phase (emitDigest (padMessage s)).ctx = .finalized := by
  obtain ⟨hvalid, -⟩ := phase_absorbing.mp hp
  simp [phase, hvalid]

/-- Settles O46: the fields of the padded context, and the guard of the phase it leaves. -/
theorem finalizeEndState : Obligations.FinalizeEndState := by
  intro s hp h
  have hphase := emitDigest_phase hp
  have hguard := (guardStatus_outside_absorbing _).2 hphase
  refine ⟨_, exec_finalize_accepted hp, hphase, padMessage_bufLen h, padMessage_bitCount s, padMessage_variant s,
    ?responses, padMessage_fstate s, padMessage_inputs s, fun _ _ => exec_update_raises hguard, exec_finalize_raises hguard,
    fun v => ⟨_, rfl, rfl⟩⟩
  case responses => rw [emitDigest_responses, padMessage_responses]; rfl

/-- Pieces of one length behind each other: entry `k` is entry `k % n` of piece `k / n`. -/
theorem getD_flatMap_of_length {α : Type} {f : α → List Byte} {n : Nat} (hf : ∀ x, (f x).length = n) (xs : List α)
    (d : α) {k : Nat} (hk : k < xs.length * n) : (xs.flatMap f).getD k 0 = (f (xs.getD (k / n) d)).getD (k % n) 0 := by
  have hn : 0 < n := Nat.pos_of_mul_pos_left (Nat.zero_lt_of_lt hk)
  induction xs generalizing k with
  | nil => simp at hk
  | cons x xs ih =>
    rw [List.flatMap_cons]
    by_cases hx : k < n
    · rw [List.getD_append _ _ _ _ (by rwa [hf]), Nat.div_eq_of_lt hx, Nat.mod_eq_of_lt hx, List.getD_cons_zero]
    · obtain ⟨j, rfl⟩ := Nat.exists_eq_add_of_le (Nat.le_of_not_lt hx)
      rw [List.length_cons, Nat.succ_mul] at hk
      rw [List.getD_append_right _ _ _ _ (by rw [hf]; omega), hf, Nat.add_sub_cancel_left, ih (by omega),
        Nat.add_div_left j hn, Nat.add_mod_left, List.getD_cons_succ]

theorem beBytes_getD (v : Nat) {n k : Nat} (h : k < n) :
    ((beBytes v n).getD k 0).toNat = v / 2 ^ (8 * (n - 1 - k)) % 256 := by
  obtain ⟨hbyte, hlen, -⟩ := bigEndianBytesAndBack
  have hk : k < (beBytes v n).length := by rwa [hlen]
  rw [List.getD_eq_getElem _ _ hk, hbyte]

/-- A byte of the digest, at any width: the byte of the word it falls into (45_finalize.md R255). -/
theorem digest_byte {w : Nat} (H : HashFile w) {k : Nat} (hk : k < 8 * (w / 8)) :
    ((H.toList.flatMap wordBytes).getD k 0).toNat
      = (H.toList.getD (k / (w / 8)) 0).toNat / 2 ^ (8 * (w / 8 - 1 - k % (w / 8))) % 256 := by
  have hw : 0 < w / 8 := Nat.pos_of_mul_pos_left (Nat.zero_lt_of_lt hk)
  rw [getD_flatMap_of_length wordBytes_length H.toList 0 (by simpa using hk), wordBytes, beBytes_getD _ (Nat.mod_lt _ hw)]

/-- Settles O49: each word gives `w/8` bytes, most significant first. -/
theorem digestSerialization : Obligations.DigestSerialization :=
  ⟨fun H => ⟨hashBytes_length (.sha256 H), fun _ hk => digest_byte H hk⟩,
    fun H => ⟨hashBytes_length (.sha512 H), fun _ hk => digest_byte H hk⟩⟩

/-! ## The digest of a message -/

/-- The padding of a context that holds a message is the message's own padding (45_finalize.md R259). -/
theorem Holds.append_paddingBytes {c : Context} {v : Variant} {msg : List Byte} (h : Holds c v msg)
    (hn : 8 * msg.length < 2 ^ v.counterBits) : msg ++ paddingBytes c = paddedMessage v msg := by
  rw [paddingBytes, lengthField, h.variant, h.bufLen, h.bitCount, zeroCount_mod, Nat.mod_eq_of_lt hn]
  simp [paddedMessage]

theorem Holds.digest {s : State} {v : Variant} {msg : List Byte} (h : Holds s.ctx v msg)
    (hn : 8 * msg.length < 2 ^ v.counterBits) : (padMessage s).ctx.hash.bytes = digestOf v msg := by
  obtain ⟨hblocks, -⟩ := blocks_append (blockBytes_pos v) msg (paddingBytes s.ctx)
  rw [padMessage_hash h.bufLen_lt, h.hash, h.buf, h.variant, ← foldBlocks_append, ← hblocks, h.append_paddingBytes hn,
    digestOf]

theorem Holds.absorbing {c : Context} {v : Variant} {msg : List Byte} (h : Holds c v msg) : phase c = .absorbing :=
  phase_absorbing.mpr ⟨h.ctxValid, h.finalized⟩

/-- Settles O52: the blocks already compressed and the final ones are the blocks of the padded message. -/
theorem finalizeReturnsDigestOfMessage : Obligations.FinalizeReturnsDigestOfMessage := by
  intro v msg s h hn
  refine ⟨_, exec_finalize_accepted h.absorbing, ?_⟩
  rw [emitDigest_responses, padMessage_responses, h.digest hn]
  rfl

/-! ## The host's sequence -/

theorem runFrame_encode {i : Instr} (h : i.WellFormed) (s : State) : runFrame (encode i) s = exec i s :=
  runFrame_decoded (decodeFrame_encode h) s

/-- UPDATE of a payload below the counter limit, on a context that holds a message: OK, and the message grows. -/
theorem Holds.exec_updateOf {s : State} {v : Variant} {msg p : List Byte} (h : Holds s.ctx v msg)
    (hp : p.length < 2 ^ 64) (hn : 8 * (msg ++ p).length < 2 ^ v.counterBits) :
    ∃ t, runFrame (encode (.update (BitVec.ofNat 64 p.length) p)) s = .next t ∧ Holds t.ctx v (msg ++ p) ∧
      t.responses = s.responses ++ [[0x00#8]] := by
  have hlen : p.length = (BitVec.ofNat 64 p.length).toNat := by rw [BitVec.toNat_ofNat, Nat.mod_eq_of_lt hp]
  have hwf : (Instr.update (BitVec.ofNat 64 p.length) p).WellFormed := by
    simpa [Instr.WellFormed, Instr.wellFormed] using hlen
  rw [List.length_append] at hn
  have hlimit : s.ctx.bitCount.toNat + 8 * (BitVec.ofNat 64 p.length).toNat < 2 ^ s.ctx.variant.counterBits := by
    rw [← hlen, h.bitCount, h.variant, Nat.mod_eq_of_lt (by omega)]
    omega
  refine ⟨_, (runFrame_encode hwf s).trans (exec_update_accepted h.absorbing hlimit), absorbSlice_holds h hlen, ?_⟩
  rw [respond_responses, absorbSlice_responses]
  rfl

/-- The UPDATEs and the FINALIZE of a sequence, from a context that holds a message. -/
theorem Holds.runFrames_updates_finalize {v : Variant} (slices : List (List Byte)) {msg : List Byte} {s : State}
    (h : Holds s.ctx v msg) (hp : ∀ p ∈ slices, p.length < 2 ^ 64)
    (hn : 8 * (msg ++ slices.flatten).length < 2 ^ v.counterBits) :
    ∃ t, runFrames ((slices.map fun p => encode (.update (BitVec.ofNat 64 p.length) p)) ++ [encode .finalize]) s
        = .next t ∧
      t.responses = s.responses ++ List.replicate slices.length [0x00#8]
        ++ [0x00#8 :: digestOf v (msg ++ slices.flatten)] := by
  induction slices generalizing msg s with
  | nil =>
    rw [List.flatten_nil, List.append_nil] at *
    obtain ⟨t, he, hresp⟩ := finalizeReturnsDigestOfMessage v msg s h hn
    exact ⟨t, runFrames_cons ((runFrame_encode (i := .finalize) rfl s).trans he) [], by simp [hresp]⟩
  | cons p ps ih =>
    obtain ⟨hp, hps⟩ := List.forall_mem_cons.mp hp
    rw [List.flatten_cons, ← List.append_assoc] at *
    have hle : 8 * (msg ++ p).length < 2 ^ v.counterBits := by simp only [List.length_append] at *; omega
    obtain ⟨u, hu, hholds, hresp⟩ := h.exec_updateOf hp hle
    obtain ⟨t, ht, hresp'⟩ := ih hholds hps hn
    exact ⟨t, (runFrames_cons hu _).trans ht, by simp [hresp', hresp, List.replicate_succ]⟩

/-- The frames of a digest computation, from every state: INIT opens a context that holds the empty message. -/
theorem runFrames_digestFrames {v : Variant} {slices : List (List Byte)} (hp : ∀ p ∈ slices, p.length < 2 ^ 64)
    (hn : 8 * slices.flatten.length < 2 ^ v.counterBits) (s : State) :
    ∃ t, runFrames (digestFrames v slices) s = .next t ∧
      t.responses = s.responses ++ List.replicate (slices.length + 1) [0x00#8]
        ++ [0x00#8 :: digestOf v slices.flatten] := by
  have hinit : runFrame (encode (.init v)) s = .next (respond .ok [] { s with ctx := freshContext v s.ctx }) :=
    runFrame_encode (i := .init v) rfl s
  obtain ⟨t, ht, hresp⟩ := Holds.runFrames_updates_finalize slices
    (s := respond .ok [] { s with ctx := freshContext v s.ctx }) (freshContext_holds v s.ctx) hp hn
  refine ⟨t, (runFrames_cons hinit _).trans ht, ?_⟩
  rw [hresp]
  simp [List.replicate_succ, responseFrame, statusByte]

/-- Settles O53: the steps take the frames one by one from the host's inputs, and the frames fold to the digest. -/
theorem hostSequenceReturnsDigest : Obligations.HostSequenceReturnsDigest := by
  intro v slices s rest hp hn hin
  obtain ⟨t, hrun, hresp⟩ := runFrames_digestFrames hp hn { s with inputs := rest }
  have hlen : (digestFrames v slices).length = slices.length + 2 := by simp [digestFrames]
  exact ⟨t, hlen ▸ runSteps_of_runFrames hin hrun, runFrames_inputs hrun, hresp⟩

/-! ## The padding state machine -/

/-- From `s` the machine reaches `t` in as many arrows as `l` is long, and its states on the way, that of `s` included and
that of `t` not, are those of `l` in some order. -/
structure FsmVisits (s : State) (l : List FState) (t : State) : Prop where
  reaches : fsmRun l.length s = t
  states : ((List.range l.length).map fun k => (fsmRun k s).fstate).Perm l

theorem fsmRun_add (m n : Nat) (s : State) : fsmRun (m + n) s = fsmRun n (fsmRun m s) := by
  induction m generalizing s with
  | zero => rw [Nat.zero_add]; rfl
  | succ m ih => rw [Nat.succ_add]; exact ih (fsmStep s)

theorem FsmVisits.arrow {s t : State} (h : fsmStep s = t) : FsmVisits s [s.fstate] t :=
  ⟨h, List.Perm.refl _⟩

theorem FsmVisits.trans {s t u : State} {l m : List FState} (h : FsmVisits s l t) (h' : FsmVisits t m u) :
    FsmVisits s (l ++ m) u := by
  constructor
  case reaches => rw [List.length_append, fsmRun_add, h.reaches, h'.reaches]
  case states =>
    have hthen : (fun k => (fsmRun k s).fstate) ∘ (l.length + ·) = fun k => (fsmRun k t).fstate := by
      funext k
      rw [Function.comp_apply, fsmRun_add, h.reaches]
    rw [List.length_append, List.range_add, List.map_append, List.map_map, hthen]
    exact h.states.append h'.states

theorem FsmVisits.perm {s t : State} {l m : List FState} (h : FsmVisits s l t) (hp : l.Perm m) : FsmVisits s m t :=
  ⟨hp.length_eq ▸ h.reaches, (hp.length_eq ▸ h.states).trans hp⟩

theorem FsmVisits.countP_eq {s t : State} {l : List FState} (h : FsmVisits s l t) (f : FState) :
    (List.range l.length).countP (fun k => (fsmRun k s).fstate = f) = l.count f := by
  rw [← h.states.count_eq, List.count, List.countP_map]
  rfl

theorem FsmVisits.ne_of_not_mem {s t : State} {l : List FState} (h : FsmVisits s l t) {f : FState} (hf : f ∉ l) {k : Nat}
    (hk : k < l.length) : (fsmRun k s).fstate ≠ f := fun he =>
  hf (h.states.mem_iff.mp (List.mem_map.mpr ⟨k, List.mem_range.mpr hk, he⟩))

/-- A pushed byte and the flush it may need are one byte step of the command rule (45_finalize.md R257). -/
theorem FsmVisits.byteStep {x : Byte} {s : State} {f : FState}
    (h : fsmStep { s with fstate := f } = afterPush (pushByte x s)) :
    FsmVisits { s with fstate := f } (f :: List.replicate (blocksAbsorbed [x] s).length .flush)
      { absorb x s with fstate := .zero } := by
  obtain ⟨hne, ha⟩ | ⟨hfull, ha⟩ := absorb_cases x s
  · have hnone : blocksAbsorbed [x] s = [] := by simp [blocksAbsorbed, hne]
    rw [hnone, ha]
    exact .arrow (h.trans (by simp [afterPush, hne]))
  · have hone : (blocksAbsorbed [x] s).length = 1 := by simp [blocksAbsorbed, hfull]
    have hflush : fsmStep { s with fstate := f } = { pushByte x s with fstate := .flush } :=
      h.trans (by simp [afterPush, hfull])
    rw [hone, ha]
    exact (FsmVisits.arrow hflush).trans (.arrow rfl)

/-- A byte step in front of a path through `F_ZERO` and `F_FLUSH`: the blocks the bytes fill add up. -/
theorem FsmVisits.byteStep_then {x : Byte} {xs : List Byte} {s t : State} {f : FState} {k : Nat}
    (h : fsmStep { s with fstate := f } = afterPush (pushByte x s))
    (hrest : FsmVisits { absorb x s with fstate := .zero }
      (List.replicate k .zero ++ List.replicate (blocksAbsorbed xs (absorb x s)).length .flush) t) :
    FsmVisits { s with fstate := f }
      (f :: (List.replicate k .zero ++ List.replicate (blocksAbsorbed (x :: xs) s).length .flush)) t := by
  have hblocks : (blocksAbsorbed (x :: xs) s).length
      = (blocksAbsorbed [x] s).length + (blocksAbsorbed xs (absorb x s)).length := by simp [blocksAbsorbed]
  rw [hblocks, List.replicate_add]
  exact ((FsmVisits.byteStep h).trans hrest).perm ((List.perm_append_comm_assoc ..).cons f)

theorem absorb_bufLen (x : Byte) {s : State} (h : s.ctx.bufLen < s.ctx.variant.blockBytes) :
    (absorb x s).ctx.bufLen = (s.ctx.bufLen + 1) % s.ctx.variant.blockBytes := by
  obtain ⟨-, hlen, -⟩ := absorbAll_spec [x] s h
  exact hlen

theorem absorb_bufLen_lt (x : Byte) {s : State} (h : s.ctx.bufLen < s.ctx.variant.blockBytes) :
    (absorb x s).ctx.bufLen < (absorb x s).ctx.variant.blockBytes := by
  rw [absorb_variant]
  exact absorbAll_bufLen_lt [x] h

/-- Fewer than `B` more bytes, but one at least, bring the buffer to another length. -/
theorem ne_add_mod_of_lt {b r k : Nat} (hr : r < b) (hk : k + 1 < b) : r ≠ (r + (k + 1)) % b := by
  obtain hlt | hge := Nat.lt_or_ge (r + (k + 1)) b
  · rw [Nat.mod_eq_of_lt hlt]; omega
  · rw [Nat.mod_eq_sub_mod hge, Nat.mod_eq_of_lt (by omega)]; omega

/-- `F_ZERO` is the padding loop: with `k` zeros to go, one arrow for each, one for each block they fill, and the arrow to
`F_LEN` (45_finalize.md R252, R257). -/
theorem FsmVisits.zeros (k : Nat) {s : State} (h : s.ctx.bufLen < s.ctx.variant.blockBytes)
    (hk : k < s.ctx.variant.blockBytes)
    (hstop : (s.ctx.bufLen + k) % s.ctx.variant.blockBytes = s.ctx.variant.blockBytes - s.ctx.variant.lengthBytes) :
    FsmVisits { s with fstate := .zero }
      (List.replicate (k + 1) .zero ++ List.replicate (blocksAbsorbed (List.replicate k 0x00#8) s).length .flush)
      { absorbAll (List.replicate k 0x00#8) s with fstate := .len } := by
  induction k generalizing s with
  | zero =>
    rw [Nat.add_zero, Nat.mod_eq_of_lt h] at hstop
    exact .arrow (if_pos hstop)
  | succ k ih =>
    have hne := ne_add_mod_of_lt h hk
    rw [hstop] at hne
    have hstep : fsmStep { s with fstate := .zero } = afterPush (pushByte 0x00#8 s) := if_neg hne
    exact FsmVisits.byteStep_then hstep (ih (s := absorb 0x00#8 s) (absorb_bufLen_lt _ h)
      (by rw [absorb_variant]; omega)
      (by rw [absorb_bufLen _ h, absorb_variant, Nat.mod_add_mod, Nat.add_assoc, Nat.add_comm 1, hstop]))

/-- `F_LEN` writes the length field, `F_LAST` compresses and `F_OUT` returns the digest (45_finalize.md R253 to R257). -/
theorem FsmVisits.lengthAndDigest {s : State} (h : s.ctx.bufLen = s.ctx.variant.blockBytes - s.ctx.variant.lengthBytes) :
    FsmVisits { s with fstate := .len } [.len, .last, .out] { emitDigest (padLength s) with fstate := .idle } := by
  have hL := lengthBytes_lt_blockBytes s.ctx.variant
  have hlen : (lengthField s.ctx).length = s.ctx.variant.lengthBytes := beBytes_length ..
  have hne : lengthField s.ctx ≠ [] := List.ne_nil_of_length_pos (hlen ▸ lengthBytes_pos _)
  rw [padLength, absorbAll_to_full _ s hne (by omega), h]
  exact ((FsmVisits.arrow rfl).trans (.arrow rfl)).trans (.arrow rfl)

theorem padZeros_variant (n : Nat) (s : State) : (padZeros n s).ctx.variant = s.ctx.variant := by
  obtain ⟨k, hk⟩ := padZeros_absorbs n s
  rw [hk, absorbAll_variant]

/-- The states of the machine from `F_MARK` until it is back in `F_IDLE`, with the flush, which may come between two visits
to `F_ZERO`, written behind them (45_finalize.md section 3). -/
def finalizePath (v : Variant) (r : Nat) : List FState :=
  .mark :: (List.replicate (zeroCount v r + 1) .zero
    ++ List.replicate (if r < v.blockBytes - v.lengthBytes then 0 else 1) .flush) ++ [.len, .last, .out]

theorem finalizePath_length (v : Variant) (r : Nat) : (finalizePath v r).length = fsmLength v r := by
  simp only [finalizePath, fsmLength, List.length_append, List.length_cons, List.length_replicate, List.length_nil,
    ← Nat.not_lt, ite_not]
  omega

theorem finalizePath_counts (v : Variant) (r : Nat) :
    (finalizePath v r).count .idle = 0 ∧ (finalizePath v r).count .zero = zeroCount v r + 1 ∧
    (finalizePath v r).count .flush = if r < v.blockBytes - v.lengthBytes then 0 else 1 := by
  simp [finalizePath, List.count_replicate]

/-- The whole path from `F_MARK`, which ends where the command rule ends (45_finalize.md R257). -/
theorem FsmVisits.finalize {s : State} (h : s.ctx.bufLen < s.ctx.variant.blockBytes) :
    FsmVisits { s with fstate := .mark } (finalizePath s.ctx.variant s.ctx.bufLen)
      { emitDigest (padMessage s) with fstate := .idle } := by
  obtain ⟨-, hzeros, hstop⟩ := padMessage_spec s h
  have hmark : fsmStep { s with fstate := .mark } = afterPush (pushByte 0x80#8 s) := rfl
  have hv : (padMark s).ctx.variant = s.ctx.variant := absorb_variant ..
  have hlen : (padMark s).ctx.bufLen = (s.ctx.bufLen + 1) % s.ctx.variant.blockBytes := absorb_bufLen _ h
  have hloop := FsmVisits.zeros (zeroCount s.ctx.variant s.ctx.bufLen) (s := padMark s) (absorb_bufLen_lt _ h)
    (by rw [hv]; exact zeroCount_lt _ _) (by rw [hlen, hv, Nat.mod_add_mod, mark_and_zeros_reach_stop])
  rw [← hzeros] at hloop
  rw [finalizePath, ← blocksAbsorbed_mark_and_zeros h]
  exact (FsmVisits.byteStep_then hmark hloop).trans (.lengthAndDigest (by rw [hstop, padZeros_variant, hv]))

/-- Settles O50: the machine's path ends in the state of the command rule, with `F_IDLE` where it began. -/
theorem paddingMachineRefinesFinalize : Obligations.PaddingMachineRefinesFinalize := by
  intro s hidle h
  have hback : (emitDigest (padMessage s)).fstate = .idle := by simp [hidle]
  have hreach := (FsmVisits.finalize h).reaches
  rw [finalizePath_length] at hreach
  rcases hg : guardStatus s.ctx with _ | e
  · simp only [execFinalizeFsm, execFinalize, hg, hreach]
    rw [← hback]
  · simp only [execFinalizeFsm, execFinalize, hg]

/-- Settles O51: the length of the path, and how often each state stands in it. -/
theorem paddingMachinePath : Obligations.PaddingMachinePath := by
  intro s h hmark
  have hs : { s with fstate := .mark } = s := by rw [← hmark]
  have hpath := hs ▸ FsmVisits.finalize h
  obtain ⟨hidle, hzero, hflush⟩ := finalizePath_counts s.ctx.variant s.ctx.bufLen
  intro v n
  have hn : (finalizePath v s.ctx.bufLen).length = n := finalizePath_length ..
  rw [← hn]
  exact ⟨by rw [hpath.reaches], fun k => hpath.ne_of_not_mem (List.count_eq_zero.mp hidle),
    (hpath.countP_eq .zero).trans hzero, (hpath.countP_eq .flush).trans hflush⟩

end Sys2Proof.Machine
end

section
/-!
PROOFS, family 60_exceptions.md (O19, O25 to O28): the step with no input, the two guard errors and what leaves phase
FINALIZED, and for every transaction the status it reports and what an error leaves unchanged.
-/

namespace Sys2Proof.Machine

/-- Settles O19: a step takes its input from the list, and with none it is the state itself. -/
theorem stepWithoutInputHoldsState : Obligations.StepWithoutInputHoldsState := fun _ => step_without_input

/-! ## The guard's errors -/

/-- The guard looks at `ctx_valid` first, whatever `finalized` is (60_exceptions.md R286). -/
theorem guardStatus_notInitialized {c : Context} (h : c.ctxValid = false) : guardStatus c = some .notInitialized :=
  if_pos h

/-- Settles O25: the guard of UPDATE and FINALIZE answers, and an error only responds. -/
theorem notInitializedError : Obligations.NotInitializedError := by
  intro s hvalid
  have hg := guardStatus_notInitialized hvalid
  exact ⟨fun _ _ => exec_update_raises hg, exec_finalize_raises hg⟩

/-- Where the guard stops UPDATE and FINALIZE, INIT alone does more than respond (60_exceptions.md R281, R282). -/
theorem exec_next_of_guardStatus {i : Instr} {s t : State} {e : Status} (hg : guardStatus s.ctx = some e)
    (h : exec i s = .next t) :
    (∃ v, i = .init v ∧ t = respond .ok [] { s with ctx := freshContext v s.ctx }) ∨ t = respond e [] s := by
  cases i with
  | init v => exact .inl ⟨v, rfl, exec_init_next h⟩
  | update len p => exact .inr (Host.Outcome.next.inj ((exec_update_raises hg).symm.trans h)).symm
  | finalize => exact .inr (Host.Outcome.next.inj ((exec_finalize_raises hg).symm.trans h)).symm

/-- Settles O26: by cases on what a step can do; in phase FINALIZED every command but INIT only responds. -/
theorem alreadyFinalizedError : Obligations.AlreadyFinalizedError := by
  intro s hp
  have hg := (guardStatus_outside_absorbing s.ctx).2 hp
  refine ⟨fun _ _ => exec_update_raises hg, exec_finalize_raises hg, fun t hstep hleft => ?_⟩
  obtain ⟨-, rfl⟩ | ⟨f, rest, -, -, rfl⟩ | ⟨f, rest, i, hin, hd, he⟩ | ⟨x, rest, hin, hx, rfl⟩ := step_next_cases hstep
  · exact absurd hp hleft
  · exact absurd hp hleft
  · obtain ⟨v, rfl, rfl⟩ | rfl := exec_next_of_guardStatus (s := { s with inputs := rest }) hg he
    · exact ⟨_, rest, hin, .inl ⟨f, v, rfl, hd, rfl⟩⟩
    · exact absurd hp hleft
  · exact ⟨x, rest, hin, .inr ⟨hx, rfl⟩⟩

/-! ## The status of a transaction -/

/-- The status a command reports: INIT succeeds in every phase, UPDATE and FINALIZE report their guard's error or OK
(60_exceptions.md R286). -/
def commandStatus (i : Instr) (c : Context) : Status :=
  match i with
  | .init _ => .ok
  | .update _ _ | .finalize => (guardStatus c).getD .ok

/-- The status a frame's transaction reports when it completes: the command byte is looked at before the command's own
checks (60_exceptions.md R286). -/
def frameStatus (f : Frame) (c : Context) : Status :=
  match decodeFrame f with
  | .ok i => commandStatus i c
  | .error _ => .illegalCommand

/-- From `s` to `t` one response with the status `st` is returned, and an error does nothing else (60_exceptions.md
R280). -/
structure Answers (st : Status) (s t : State) : Prop where
  response  : ∃ digest, t.responses = s.responses ++ [responseFrame st digest]
  unchanged : st ≠ .ok → t = respond st [] s

theorem Answers.respond (st : Status) (s : State) : Answers st s (respond st [] s) :=
  ⟨⟨[], rfl⟩, fun _ => rfl⟩

theorem Answers.ok {s t : State} {digest : List Byte} (h : t.responses = s.responses ++ [responseFrame .ok digest]) :
    Answers .ok s t :=
  ⟨⟨digest, h⟩, fun hne => absurd rfl hne⟩

theorem exec_answers {i : Instr} {s t : State} (h : exec i s = .next t) : Answers (commandStatus i s.ctx) s t := by
  cases i with
  | init v =>
    rw [exec_init_next h]
    exact .ok (digest := []) rfl
  | update len p =>
    obtain ⟨e, hg, rfl⟩ | ⟨hg, rfl⟩ := exec_update_cases h <;> simp only [commandStatus, hg]
    · exact .respond e s
    · exact .ok (digest := []) (by rw [respond_responses, absorbSlice_responses])
  | finalize =>
    obtain ⟨e, hg, rfl⟩ | ⟨hg, rfl⟩ := exec_finalize_cases h <;> simp only [commandStatus, hg]
    · exact .respond e s
    · exact .ok (by rw [emitDigest_responses, padMessage_responses])

theorem runFrame_answers {f : Frame} {s t : State} (h : runFrame f s = .next t) : Answers (frameStatus f s.ctx) s t := by
  obtain ⟨hd, rfl⟩ | ⟨i, hd, he⟩ := runFrame_next_cases h <;> simp only [frameStatus, hd]
  · exact .respond .illegalCommand s
  · exact exec_answers he

/-- Settles O28: the one response shows its status, and with an error status responding is all that happened. -/
theorem failedCommandChangesNothing : Obligations.FailedCommandChangesNothing := by
  intro f s t r hrun hr herror
  obtain ⟨⟨digest, hresponse⟩, hunchanged⟩ := runFrame_answers hrun
  obtain rfl : r = responseFrame (frameStatus f s.ctx) digest := by simpa [hr] using hresponse
  have hst : frameStatus f s.ctx ≠ .ok := fun hok => herror (by rw [hok]; rfl)
  have ht := hunchanged hst
  obtain rfl : digest = [] := by simpa [ht, responseFrame, eq_comm] using hr
  exact ⟨rfl, ht⟩

/-! ## The order of the checks -/

theorem statusByte_guardStatus (c : Context) : statusByte ((guardStatus c).getD .ok) =
    if c.ctxValid = false then 0x02#8 else if c.finalized = true then 0x01#8 else 0x00#8 := by
  unfold guardStatus
  split_ifs <;> rfl

/-- Settles O27: an illegal command byte is seen first; a legal one is that of the decoded command's frame. -/
theorem statusPrecedence : Obligations.StatusPrecedence := by
  intro cmd body s t hrun
  obtain ⟨⟨digest, hresponse⟩, -⟩ := runFrame_answers hrun
  refine ⟨_, hresponse, congrArg some ?_⟩
  obtain ⟨hd, -⟩ | ⟨i, hd, -⟩ := runFrame_next_cases hrun
  · rw [if_pos (decodeOpcode_none_iff.mp (decodeFrame_illegal_iff.mp hd)), frameStatus, hd]
    rfl
  · have henc := (encode_of_decodeFrame hd).2
    rw [frameStatus, hd]
    cases i with
    | init v => cases v <;> cases henc <;> rfl
    | update len p => cases henc; exact statusByte_guardStatus s.ctx
    | finalize => cases henc; exact statusByte_guardStatus s.ctx

end Sys2Proof.Machine
end

section
/-!
PROOFS, family 70_reset_and_hazards.md (O23): both kinds of reset are one operation on the engine, `resetEngine`.
-/

namespace Sys2Proof.Machine

@[simp] theorem resetContext_phase (n : Nat) : phase (resetContext n) = .idle := rfl

theorem runInput_of_reset {x : HostInput} (h : x = .reset ∨ ∃ f : Frame, x = .commandCutByReset f) (s : State) :
    runInput x s = .next (resetEngine s) := by
  obtain rfl | ⟨f, rfl⟩ := h <;> rfl

/-- Settles O23: the step is `resetEngine` on the state whose input is taken, and each clause is one of its fields. -/
theorem resetInputLeavesIdleEngine : Obligations.ResetInputLeavesIdleEngine := by
  intro s x rest hin hreset
  refine ⟨resetEngine { s with inputs := rest }, ?_, resetContext_ctxValid _, resetContext_finalized _,
    resetEngine_fstate _, resetContext_phase _, resetEngine_responses _, resetEngine_inputs _⟩
  rw [step_with_input hin, runInput_of_reset hreset]

end Sys2Proof.Machine
end

section
/-!
PROOFS, the remaining statements (O33, O54, O55): the invariant in the state after reset, and what INIT and the byte step do
to the values the spec leaves unspecified.
-/

namespace Sys2Proof.Machine

/-- With both flags 0 the invariant asks nothing of the rest of the context, which is not meaningful then (10_state.md
R39, R48). -/
theorem State.Inv.of_flags_clear {s : State} (hvalid : s.ctx.ctxValid = false) (hopen : s.ctx.finalized = false)
    (hidle : s.fstate = .idle) : s.Inv where
  phase h := by simp [hopen] at h
  fstate := hidle
  bufLen h := by simp [hvalid] at h
  empty h := by simp [hopen] at h
  bitCount h := by simp [hvalid] at h

/-- Settles O33: the three values R48 gives are enough, so no clause rests on an unspecified one. -/
theorem invariantAtReset : Obligations.InvariantAtReset := by
  obtain ⟨hvalid, hopen, hidle, -⟩ := resetStateIsIdle
  exact .of_flags_clear hvalid hopen hidle

/-- Settles O54: INIT's next state is the fresh context, which keeps the old buffer, and a response. -/
theorem initFrame : Obligations.InitFrame := by
  intro v s t he
  rw [exec_init_next he]
  exact ⟨freshContext_buf v s.ctx, respond_datapath .., respond_draws ..⟩

/-- Settles O55: the push is the byte step's one store, and a compression leaves the buffer. -/
theorem absorbByteFrame : Obligations.AbsorbByteFrame :=
  fun x s _ => absorb_buf x s

end Sys2Proof.Machine
end
